-- ==== Sys2Proof/Word.lean ====
section
/-! DEFINITION. The words of the block: bytes, the 16-bit period and interval registers, and the port widths of a
reading (10_state.md R24, R25; 41_routing.md R140; 92_eei_decisions.md D32). -/

namespace Sys2Proof

/-- One byte on the wire, 0..255 (00_scope.md R11). -/
abbrev Byte := BitVec 8

/-- A 16-bit unsigned register, in milliseconds (10_state.md R24, R25). -/
abbrev Word16 := BitVec 16

/-- The 2-bit id port of a reading (41_routing.md R140). -/
abbrev ReadingId := BitVec 2

/-- The 10-bit value port of a reading (41_routing.md R140). -/
abbrev ReadingValue := BitVec 10

/-- One FIFO entry: a packed reading, as bytes, first on the wire first (10_state.md R26). -/
abbrev Entry := List Byte

end Sys2Proof
end

