-- ==== Sys2Proof/Syntax.lean ====
section
/-! DEFINITION. The commands, one constructor per row of spec/opcode_table.json (30_encoding.md R70, R73). -/

namespace Sys2Proof

/-- A command. Every constructor keeps the optional data byte of its chunk (30_encoding.md R70, R85): `none` for the
1-byte chunk, `some d` for `[opcode, d]`. The opcodes 0x00..0x04 and every unrecognized one ignore it (R72). A row that
stands for several opcodes keeps the opcode it was sent as, the `op` of `Unrecognized(op)` (40_dispatch.md R100); log 11. -/
inductive Instr where
  /-- `STOP`, StopMode, 0x00 (40_dispatch.md R101). -/
  | stop (data : Option Byte)
  /-- `START1`, StartMode1, 0x01 (R102). -/
  | start1 (data : Option Byte)
  /-- `START2`, StartMode2, 0x02 (R103). -/
  | start2 (data : Option Byte)
  /-- `START3`, StartMode3, 0x03 (R104). -/
  | start3 (data : Option Byte)
  /-- `GETDATA`, GetData, 0x04 (R105). -/
  | getdata (data : Option Byte)
  /-- `CFGS1`, ConfigureSensor1, 0x05 (R106). -/
  | cfgs1 (data : Option Byte)
  /-- `CFGS2`, ConfigureSensor2, 0x06 (R107). -/
  | cfgs2 (data : Option Byte)
  /-- `CFGS3`, ConfigureSensor3, 0x07 (R108). -/
  | cfgs3 (data : Option Byte)
  /-- `CFGBATCH`, ConfigureBatchRate, 0x08 (R109). -/
  | cfgbatch (data : Option Byte)
  /-- `reserved_0x09`, the outbound tag 0x09 sent inbound (30_encoding.md R74; R110). -/
  | reserved09 (data : Option Byte)
  /-- `reserved_0x0A`, the outbound tag 0x0A sent inbound (30_encoding.md R74; R110). -/
  | reserved0A (data : Option Byte)
  /-- `(unrecognized)`, the row 0x0B (30_encoding.md R75; R110). -/
  | unrecognized0B (data : Option Byte)
  /-- `(unrecognized)`, the row 0x0C..0x0F (R75, R110). -/
  | unrecognized0C (op : Byte) (data : Option Byte)
  /-- `(unrecognized)`, the row 0x10..0x1F (R75, R110). -/
  | unrecognized10 (op : Byte) (data : Option Byte)
  /-- `(unrecognized)`, the row 0x20..0x3F (R75, R110). -/
  | unrecognized20 (op : Byte) (data : Option Byte)
  /-- `(unrecognized)`, the row 0x40..0x7F (R75, R110). -/
  | unrecognized40 (op : Byte) (data : Option Byte)
  /-- `(unrecognized)`, the row 0x80..0xFF (R75, R110). -/
  | unrecognized80 (op : Byte) (data : Option Byte)
deriving DecidableEq, Repr

end Sys2Proof
end

