-- ==== Sys2Proof/WellFormed.lean ====
section
/-! DEFINITION. The check of a command: a row that stands for several opcodes holds one of its own opcodes. -/

namespace Sys2Proof

/-- `op` lies in the opcode-table row with this mask and match (spec/opcode_table.json). -/
def inRow (mask pattern op : Byte) : Bool := op &&& mask == pattern

/-- The opcode a row of several opcodes was sent as is one of the row's own (30_encoding.md R73, R75). The rows of one
opcode hold nothing to check: every data byte is admitted (R72). -/
def Instr.wellFormed : Instr → Bool
  | .stop _ => true
  | .start1 _ => true
  | .start2 _ => true
  | .start3 _ => true
  | .getdata _ => true
  | .cfgs1 _ => true
  | .cfgs2 _ => true
  | .cfgs3 _ => true
  | .cfgbatch _ => true
  | .reserved09 _ => true
  | .reserved0A _ => true
  | .unrecognized0B _ => true
  | .unrecognized0C op _ => inRow 0xFC 0x0C op
  | .unrecognized10 op _ => inRow 0xF0 0x10 op
  | .unrecognized20 op _ => inRow 0xE0 0x20 op
  | .unrecognized40 op _ => inRow 0xC0 0x40 op
  | .unrecognized80 op _ => inRow 0x80 0x80 op

end Sys2Proof
end

