-- ==== Sys2Proof/Decode.lean ====
section
/-! DEFINITION. Parsing a chunk (30_encoding.md R71), the decoder and the encoder of commands (R70, R73), and the
layout of an opcode-table word as a chunk. -/

namespace Sys2Proof

/-- Why a chunk is no command. -/
inductive DecodeReject where
  /-- The chunk holds no byte: `parse` answers NONE (30_encoding.md R71). Safe: the event is ignored as 40_dispatch.md
  R111 says. -/
  | emptyChunk
deriving DecidableEq, Repr

/-- `parse(b)` (30_encoding.md R71): the opcode and the data byte at the head of a chunk. -/
def parse : List Byte → Option (Byte × Byte)
  | [] => none
  | [op] => some (op, 0)
  | op :: d :: _ => some (op, d)

/-- The data byte a chunk carries, when it has one (30_encoding.md R70). -/
def chunkData : List Byte → Option Byte
  | [] => none
  | [_] => none
  | _ :: d :: _ => some d

/-- The 17 rows of spec/opcode_table.json, in its order (30_encoding.md R73). -/
inductive OpcodeRow where
  | stop
  | start1
  | start2
  | start3
  | getdata
  | cfgs1
  | cfgs2
  | cfgs3
  | cfgbatch
  | reserved09
  | reserved0A
  | unrecognized0B
  | unrecognized0C
  | unrecognized10
  | unrecognized20
  | unrecognized40
  | unrecognized80
deriving DecidableEq, Repr

/-- The mask of a row: which bits of byte 0 it fixes. -/
def rowMask : OpcodeRow → Byte
  | .stop => 0xFF
  | .start1 => 0xFF
  | .start2 => 0xFF
  | .start3 => 0xFF
  | .getdata => 0xFF
  | .cfgs1 => 0xFF
  | .cfgs2 => 0xFF
  | .cfgs3 => 0xFF
  | .cfgbatch => 0xFF
  | .reserved09 => 0xFF
  | .reserved0A => 0xFF
  | .unrecognized0B => 0xFF
  | .unrecognized0C => 0xFC
  | .unrecognized10 => 0xF0
  | .unrecognized20 => 0xE0
  | .unrecognized40 => 0xC0
  | .unrecognized80 => 0x80

/-- The match of a row: the value of the bits it fixes. -/
def rowMatch : OpcodeRow → Byte
  | .stop => 0x00
  | .start1 => 0x01
  | .start2 => 0x02
  | .start3 => 0x03
  | .getdata => 0x04
  | .cfgs1 => 0x05
  | .cfgs2 => 0x06
  | .cfgs3 => 0x07
  | .cfgbatch => 0x08
  | .reserved09 => 0x09
  | .reserved0A => 0x0A
  | .unrecognized0B => 0x0B
  | .unrecognized0C => 0x0C
  | .unrecognized10 => 0x10
  | .unrecognized20 => 0x20
  | .unrecognized40 => 0x40
  | .unrecognized80 => 0x80

/-- The rows in the table's order, but for the last. -/
def earlierRows : List OpcodeRow :=
  [.stop, .start1, .start2, .start3, .getdata, .cfgs1,
   .cfgs2, .cfgs3, .cfgbatch, .reserved09, .reserved0A, .unrecognized0B,
   .unrecognized0C, .unrecognized10, .unrecognized20, .unrecognized40]

/-- The row an opcode selects (30_encoding.md R73, R86): the one whose fixed bits it has. The rows cover every byte once, so
an opcode of none of the earlier rows is of the last, 0x80..0xFF (checked in Sys2Proof/Laws/Decode.lean). -/
def rowOf (op : Byte) : OpcodeRow :=
  (earlierRows.find? fun r => inRow (rowMask r) (rowMatch r) op).getD .unrecognized80

/-- The command of a row, its opcode and its data byte. -/
def commandOfRow (r : OpcodeRow) (op : Byte) (data : Option Byte) : Instr :=
  match r with
  | .stop => .stop data
  | .start1 => .start1 data
  | .start2 => .start2 data
  | .start3 => .start3 data
  | .getdata => .getdata data
  | .cfgs1 => .cfgs1 data
  | .cfgs2 => .cfgs2 data
  | .cfgs3 => .cfgs3 data
  | .cfgbatch => .cfgbatch data
  | .reserved09 => .reserved09 data
  | .reserved0A => .reserved0A data
  | .unrecognized0B => .unrecognized0B data
  | .unrecognized0C => .unrecognized0C op data
  | .unrecognized10 => .unrecognized10 op data
  | .unrecognized20 => .unrecognized20 op data
  | .unrecognized40 => .unrecognized40 op data
  | .unrecognized80 => .unrecognized80 op data

/-- The command an opcode selects (30_encoding.md R73, 40_dispatch.md R100). -/
def selectCommand (op : Byte) (data : Option Byte) : Instr := commandOfRow (rowOf op) op data

/-- The command at the head of a chunk: total on any bytes; the empty chunk alone is rejected (30_encoding.md R71,
R86). Bytes from index 2 on are not read. -/
def decode (chunk : List Byte) : Except DecodeReject Instr :=
  match chunk with
  | [] => .error .emptyChunk
  | op :: rest => .ok (selectCommand op (chunkData (op :: rest)))

/-- The opcode of a command (30_encoding.md R73). -/
def Instr.opcode : Instr → Byte
  | .stop _ => 0x00
  | .start1 _ => 0x01
  | .start2 _ => 0x02
  | .start3 _ => 0x03
  | .getdata _ => 0x04
  | .cfgs1 _ => 0x05
  | .cfgs2 _ => 0x06
  | .cfgs3 _ => 0x07
  | .cfgbatch _ => 0x08
  | .reserved09 _ => 0x09
  | .reserved0A _ => 0x0A
  | .unrecognized0B _ => 0x0B
  | .unrecognized0C op _ => op
  | .unrecognized10 op _ => op
  | .unrecognized20 op _ => op
  | .unrecognized40 op _ => op
  | .unrecognized80 op _ => op

/-- The data byte of a command, when its chunk had one (30_encoding.md R70). -/
def Instr.data : Instr → Option Byte
  | .stop d => d
  | .start1 d => d
  | .start2 d => d
  | .start3 d => d
  | .getdata d => d
  | .cfgs1 d => d
  | .cfgs2 d => d
  | .cfgs3 d => d
  | .cfgbatch d => d
  | .reserved09 d => d
  | .reserved0A d => d
  | .unrecognized0B d => d
  | .unrecognized0C _ d => d
  | .unrecognized10 _ d => d
  | .unrecognized20 _ d => d
  | .unrecognized40 _ d => d
  | .unrecognized80 _ d => d

/-- The chunk of a command: `[opcode]` or `[opcode, data]` (30_encoding.md R70, R84). -/
def encode (i : Instr) : List Byte := i.opcode :: i.data.toList

/-- The low `n` bytes of a number, the least significant first. -/
def lowBytes : Nat → Nat → List Byte
  | 0, _ => []
  | n + 1, w => BitVec.ofNat 8 w :: lowBytes n (w / 256)

/-- The chunk of an opcode-table word of `nbits` bits: its bytes in the table's numbering, and a zero operand byte where
the table gives the operand no bits (log 12). -/
def chunkOfWord (nbits w : Nat) : List Byte := lowBytes (max 2 ((nbits + 7) / 8)) (w % 2 ^ nbits)

/-- The command the decoder reads from an opcode-table word. -/
def decodeTableWord (nbits w : Nat) : Option Instr :=
  match decode (chunkOfWord nbits w) with
  | .ok i => some i
  | .error _ => none

end Sys2Proof
end

