-- ==== Sys2Proof/Config.lean ====
section
/-! DEFINITION. The configuration record `Cfg` of 00_scope.md R6: the fixed constants of the block, the record of its
OPEN parameters, and the opaque values the machine's reset state takes for them. -/

namespace Sys2Proof

/-- A sensor channel, ids 1, 2, 3 (00_scope.md R6, `NUM_SENSORS`). -/
inductive Sensor where
  | s1
  | s2
  | s3
deriving DecidableEq, Repr

/-- One 16-bit value for each sensor channel: the registers `period[n]`, n = 1..3 (10_state.md R24). -/
structure Periods where
  s1 : Word16
  s2 : Word16
  s3 : Word16
deriving DecidableEq, Repr

/-- `NUM_SENSORS` (00_scope.md R6). -/
def Config.numSensors : Nat := 3

/-- `VALUE_BITS` (00_scope.md R6): the width of `ReadingValue`. -/
def Config.valueBits : Nat := 10

/-- `ID_BITS` (00_scope.md R6): the width of `ReadingId`. -/
def Config.idBits : Nat := 2

/-- `FREQ_TAG`, first byte of the frequencies frame (00_scope.md R6). -/
def Config.freqTag : Byte := 0x00

/-- `FORCED_TAG`, first byte of a forced flush frame (00_scope.md R6, D17). -/
def Config.forcedTag : Byte := 0x04

/-- `PERIODIC_TAG`, first byte of a periodic flush frame (00_scope.md R6, D16). -/
def Config.periodicTag : Byte := 0x0A

/-- `DIRECT_TAG`, first byte of a direct-value frame (00_scope.md R6, D16). -/
def Config.directTag : Byte := 0x09

/-- `MIN_PERIOD_MS`, least period or interval a configure command can set (00_scope.md R6, D9). -/
def Config.minPeriodMs : Nat := 1

/-- `FREQ_MAX`, saturation bound of a sensor frequency (00_scope.md R6, D11). -/
def Config.freqMax : Nat := 15

/-- `RATE_MAX`, saturation bound of the batch rate (00_scope.md R6, D12). -/
def Config.rateMax : Nat := 255

/-- The OPEN parameters of the block (00_scope.md R6), with the bounds R6 puts on them as proof fields, so that no
configuration outside R6 can be written. -/
structure Cfg where
  /-- `TS_BITS`, width of the timestamp field of a packed reading. -/
  tsBits : Nat
  /-- `CAPACITY` (`C`), FIFO capacity in entries. -/
  capacity : Nat
  /-- `SUCCESS_CODE`, second byte of an acknowledgement. -/
  successCode : Byte
  /-- `ERROR_CODE`, second byte of a failure frame. -/
  errorCode : Byte
  /-- `PERIOD_RESET_MS[n]`. -/
  periodReset : Periods
  /-- `BATCH_RESET_MS`. -/
  batchReset : Word16
  capacity_pos : 1 ≤ capacity := by decide
  capacity_le : capacity ≤ 65535 := by decide
  codes_distinct : errorCode ≠ successCode := by decide
  periodReset1_legal : Config.minPeriodMs ≤ periodReset.s1.toNat := by decide
  periodReset2_legal : Config.minPeriodMs ≤ periodReset.s2.toNat := by decide
  periodReset3_legal : Config.minPeriodMs ≤ periodReset.s3.toNat := by decide
  batchReset_legal : Config.minPeriodMs ≤ batchReset.toNat := by decide
deriving DecidableEq, Repr

/-- DESIGN CHOICE (log 5): `TS_BITS` of the block that State.reset builds; any natural number. -/
opaque Config.tsBits : Nat

/-- DESIGN CHOICE (log 5): `CAPACITY` less one, so that the capacity lies in 1..65535. -/
opaque Config.capacityPred : Fin 65535

/-- DESIGN CHOICE (log 5): `SUCCESS_CODE`, any byte. -/
opaque Config.successCode : Byte

/-- DESIGN CHOICE (log 5): how far `ERROR_CODE` lies above `SUCCESS_CODE`, less one: any byte but `SUCCESS_CODE`. -/
opaque Config.errorGap : Fin 255

/-- DESIGN CHOICE (log 5): `PERIOD_RESET_MS[1]` less one. -/
opaque Config.periodReset1Pred : Fin 65535

/-- DESIGN CHOICE (log 5): `PERIOD_RESET_MS[2]` less one. -/
opaque Config.periodReset2Pred : Fin 65535

/-- DESIGN CHOICE (log 5): `PERIOD_RESET_MS[3]` less one. -/
opaque Config.periodReset3Pred : Fin 65535

/-- DESIGN CHOICE (log 5): `BATCH_RESET_MS` less one. -/
opaque Config.batchResetPred : Fin 65535

/-- DESIGN CHOICE (log 7): `freqOf(0)`, which 42_frame_encoder.md R165 does not state (its domain is 1..65535). -/
opaque Config.freqAtZero : Byte

/-- DESIGN CHOICE (log 7): `rateOf(0)`, which 42_frame_encoder.md R166 does not state (its domain is 1..65535). -/
opaque Config.rateAtZero : Byte

/-- DESIGN CHOICE (log 15): `SENSOR_INIT_VALUE[n]` (60_exceptions.md R217, D37), environment only. -/
opaque Config.sensorInitValue : Sensor → ReadingValue

/-- DESIGN CHOICE (log 15): whether a tick's reading carries the accumulator after its advance
(93_implementation_defined.md I6), environment only. -/
opaque Config.timestampAfterAdvance : Bool

/-- The 16-bit register value one above an index: every value 1..65535, once each. -/
def Config.fromPred (k : Fin 65535) : Word16 := BitVec.ofNat 16 (k.val + 1)

theorem Config.fromPred_toNat (k : Fin 65535) : (Config.fromPred k).toNat = k.val + 1 := by
  simp only [Config.fromPred, BitVec.toNat_ofNat]
  omega

/-- The configuration of the block that State.reset builds: every OPEN parameter an opaque constant within the bounds
of 00_scope.md R6 (log 5). -/
def Config.cfg : Cfg where
  tsBits := Config.tsBits
  capacity := Config.capacityPred.val + 1
  successCode := Config.successCode
  errorCode := Config.successCode + BitVec.ofNat 8 (Config.errorGap.val + 1)
  periodReset := ⟨Config.fromPred Config.periodReset1Pred, Config.fromPred Config.periodReset2Pred,
    Config.fromPred Config.periodReset3Pred⟩
  batchReset := Config.fromPred Config.batchResetPred
  capacity_pos := by omega
  capacity_le := by omega
  codes_distinct := by
    intro h
    have hlt := Config.errorGap.isLt
    have h' := congrArg BitVec.toNat h
    simp only [BitVec.toNat_add, BitVec.toNat_ofNat] at h'
    have := Config.successCode.isLt
    omega
  periodReset1_legal := by simp [Config.fromPred_toNat, Config.minPeriodMs]
  periodReset2_legal := by simp [Config.fromPred_toNat, Config.minPeriodMs]
  periodReset3_legal := by simp [Config.fromPred_toNat, Config.minPeriodMs]
  batchReset_legal := by simp [Config.fromPred_toNat, Config.minPeriodMs]

/-- The example configuration `VC-A` of 00_scope.md R9 for given codes; R9 calls it an example, not a decision. -/
def Config.vcA (s e : Byte) (h : e ≠ s := by decide) : Cfg where
  tsBits := 4
  capacity := 4
  successCode := s
  errorCode := e
  periodReset := ⟨1000, 1000, 1000⟩
  batchReset := 1000
  codes_distinct := h

/-- The example configuration `VC-B` of 00_scope.md R9: `VC-A` with `TS_BITS = 20`. -/
def Config.vcB (s e : Byte) (h : e ≠ s := by decide) : Cfg where
  tsBits := 20
  capacity := 4
  successCode := s
  errorCode := e
  periodReset := ⟨1000, 1000, 1000⟩
  batchReset := 1000
  codes_distinct := h

end Sys2Proof
end

