-- ==== Sys2Proof/Machine/State.lean ====
section
/-! DEFINITION. The state of the block (10_state.md R20), the input and output events of its interface, the reasons a step
can stop, and the state after reset (70_reset_and_hazards.md R240). -/

namespace Sys2Proof.Machine

/-- The operating mode (10_state.md R21), an enumeration as R22 allows; its 2-bit code is `Mode.code` (log 16). -/
inductive Mode where
  | noMode
  | direct
  | batch
  | onDemand
deriving DecidableEq, Repr

/-- The four input events, the block's only inputs (60_exceptions.md R212). -/
inductive InputEvent where
  /-- The transport delivers a chunk (40_dispatch.md R100). -/
  | rxChunk (bytes : List Byte)
  /-- A sensor channel's tick delivers a reading (41_routing.md R140). -/
  | reading (id : ReadingId) (value : ReadingValue) (ts : Nat)
  /-- The scheduler's flush timer ticks (41_routing.md R145). -/
  | flushTick
  /-- Reset (70_reset_and_hazards.md R240). -/
  | reset
deriving DecidableEq, Repr

/-- The output events (00_scope.md R14). -/
inductive OutputEvent where
  /-- `Tx(frame)`: one byte sequence to the transport's `write`. -/
  | tx (frame : List Byte)
  /-- `SensorConfigure(n, p)`: sensor channel `n` is told its new period. -/
  | sensorConfigure (n : Sensor) (p : Word16)
  /-- `SensorRestart(n)`: sensor channel `n` is told to run its `restart()`. -/
  | sensorRestart (n : Sensor)
  /-- `FlushTimerArm(i)`: the scheduler is told to (re)arm the flush timer. -/
  | flushTimerArm (i : Word16)
  /-- `FlushIntervalSet(i)`: the scheduler is told the new interval, with no re-arm. -/
  | flushIntervalSet (i : Word16)
deriving DecidableEq, Repr

/-- The machine's faults: none. "The block raises no exception, has no fault state and never stops" (60_exceptions.md
R210), so the type has no constructor and nobody raises one. Safe: R210 says so of every input in every state (log 10). -/
inductive Fault
deriving DecidableEq, Repr

/-- The machine's refusals. -/
inductive Refusal where
  /-- An instruction with no meaning in the model. Raised by no arm of `exec`: every row of the opcode table has its
  meaning. Safe: a refusal proves nothing about the instruction. -/
  | notModelled (mnemonic : String)
deriving DecidableEq, Repr

/-- The state. The first five fields are the whole of 10_state.md R20; the last three are the model's own: the
configuration the block was built with (log 4), the input events still to be presented (log 1) and the output events
emitted so far (log 3). -/
structure State where
  /-- The operating mode (10_state.md R21). -/
  mode : Mode
  /-- Whether a StopMode has been received since reset (10_state.md R23). -/
  started : Bool
  /-- The emission periods `period[1..3]` in ms (10_state.md R24). -/
  period : Periods
  /-- The periodic flush interval in ms (10_state.md R25). -/
  batchInterval : Word16
  /-- The reading FIFO, oldest entry first (10_state.md R26). -/
  buf : List Entry
  /-- MODEL: the configuration record (00_scope.md R6), which nothing writes. -/
  cfg : Cfg
  /-- MODEL: the environment's schedule, the next input event first (60_exceptions.md R213). -/
  inputs : List InputEvent
  /-- MODEL: every output event emitted so far, in emission order (20_memory.md R63). -/
  outputs : List OutputEvent
deriving DecidableEq, Repr

/-- The outcomes of a step of this machine. -/
abbrev Result := Host.Outcome State Fault Refusal

/-- The reset state of a block built with configuration `c` (70_reset_and_hazards.md R240), nothing presented to it and
nothing emitted by it. -/
def State.resetWith (c : Cfg) : State where
  mode := .noMode
  started := false
  period := c.periodReset
  batchInterval := c.batchReset
  buf := []
  cfg := c
  inputs := []
  outputs := []

/-- The machine right after reset (70_reset_and_hazards.md R240, R241), with the OPEN parameters of `Config.cfg`. -/
def State.reset : State := State.resetWith Config.cfg

end Sys2Proof.Machine
end

