-- ==== Sys2Proof/Machine/Flags.lean ====
section
/-! DEFINITION. The control state: the `mode` register and the `started` flag, the block's only flag (10_state.md R21 to
R23, R29). -/

namespace Sys2Proof.Machine

/-- The 2-bit code of a mode (10_state.md R22). -/
def modeCode : Mode → BitVec 2
  | .noMode => 0
  | .direct => 1
  | .batch => 2
  | .onDemand => 3

/-- The mode of a 2-bit code; all four codes are legal (10_state.md R22). -/
def modeOfCode (code : BitVec 2) : Mode :=
  if code = 0 then .noMode else if code = 1 then .direct else if code = 2 then .batch else .onDemand

/-- `s.mode <- m` (10_state.md R21). -/
def setMode (m : Mode) (s : State) : State := { s with mode := m }

/-- `s.started <- 1` (10_state.md R23). -/
def setStarted (s : State) : State := { s with started := true }

end Sys2Proof.Machine
end

