-- ==== Sys2Proof/Machine/Frame.lean ====
section
/-! DEFINITION. The frame encoder (42_frame_encoder.md): pure functions of their arguments (R160). -/

namespace Sys2Proof.Machine

/-- `W`, the width in bytes of one packed reading (00_scope.md R7). -/
def entryWidth (c : Cfg) : Nat := (c.tsBits + 12 + 7) / 8

/-- `be(v, n)`: the big-endian serialization of `v` in `n` bytes, most significant first (00_scope.md R12). -/
def beBytes : Nat → Nat → List Byte
  | 0, _ => []
  | n + 1, v => BitVec.ofNat 8 (v / 2 ^ (8 * n)) :: beBytes n v

/-- The number a big-endian byte sequence spells (42_frame_encoder.md R169). -/
def beNat (bytes : List Byte) : Nat := bytes.foldl (fun acc b => acc * 256 + b.toNat) 0

/-- The packed integer `P` of a reading (42_frame_encoder.md R161, 30_encoding.md R79). -/
def packedNat (c : Cfg) (ts : Nat) (id : ReadingId) (value : ReadingValue) : Nat :=
  ts % 2 ^ c.tsBits * 2 ^ 12 + id.toNat * 2 ^ 10 + value.toNat

/-- `pack(ts, id, value)`: one FIFO entry (42_frame_encoder.md R161). -/
def pack (c : Cfg) (ts : Nat) (id : ReadingId) (value : ReadingValue) : Entry :=
  beBytes (entryWidth c) (packedNat c ts id value)

/-- `unpack(e)`: what a decoder in lockstep computes from one entry (42_frame_encoder.md R169). -/
def unpack (e : Entry) : Nat × ReadingId × ReadingValue :=
  (beNat e / 2 ^ 12, BitVec.ofNat 2 (beNat e / 2 ^ 10), BitVec.ofNat 10 (beNat e))

/-- `directFrame(ts, id, value)` (42_frame_encoder.md R162). -/
def directFrame (c : Cfg) (ts : Nat) (id : ReadingId) (value : ReadingValue) : List Byte :=
  Config.directTag :: pack c ts id value

/-- `ackFrame(op)` (42_frame_encoder.md R163). -/
def ackFrame (c : Cfg) (op : Byte) : List Byte := [op, c.successCode]

/-- `failFrame(op)` (42_frame_encoder.md R164); no command sends it (40_dispatch.md R113). -/
def failFrame (c : Cfg) (op : Byte) : List Byte := [op, c.errorCode]

/-- Round-half-up of `1000 / p`, exact in integers (42_frame_encoder.md R165, R166, D10). -/
def roundedRate (p : Nat) : Nat := (2000 + p) / (2 * p)

/-- `freqOf(p)` (42_frame_encoder.md R165); its value at 0 is not stated and is free (log 7). -/
def freqOf (p : Word16) : Byte :=
  if p = 0 then Config.freqAtZero else BitVec.ofNat 8 (min (roundedRate p.toNat) Config.freqMax)

/-- `rateOf(i)` (42_frame_encoder.md R166); its value at 0 is not stated and is free (log 7). -/
def rateOf (i : Word16) : Byte :=
  if i = 0 then Config.rateAtZero else BitVec.ofNat 8 (min (roundedRate i.toNat) Config.rateMax)

/-- `frequenciesFrame(p1, p2, p3, i)` (42_frame_encoder.md R167). -/
def frequenciesFrame (p : Periods) (i : Word16) : List Byte :=
  [Config.freqTag, freqOf p.s1, freqOf p.s2, freqOf p.s3, rateOf i]

/-- `flushFrame(tag, n, bytes)` (42_frame_encoder.md R168). -/
def flushFrame (tag : Byte) (n : Nat) (bytes : List Byte) : List Byte := tag :: (beBytes 2 n ++ bytes)

end Sys2Proof.Machine
end

