-- ==== Sys2Proof/Machine/Operands.lean ====
section
/-! DEFINITION. The one operand form of a command, its data byte, and the sensor number a configure command names
(30_encoding.md R71, R72; 40_dispatch.md R106 to R109). -/

namespace Sys2Proof.Machine

/-- The data operand: "optional 1 byte, default 0" (30_encoding.md R70, R71). -/
def dataByte (data : Option Byte) : Byte := data.getD 0

/-- `max(zext_16(data), MIN_PERIOD_MS)`: the data byte, unsigned and unscaled, as a period or interval in ms
(30_encoding.md R72, 40_dispatch.md R106, R109, D8, D9). -/
def clampedMs (data : Option Byte) : Word16 := BitVec.ofNat 16 (max (dataByte data).toNat Config.minPeriodMs)

/-- The number of a sensor channel, 1..3 (00_scope.md R6). -/
def sensorNumber : Sensor → Nat
  | .s1 => 1
  | .s2 => 2
  | .s3 => 3

/-- The id a sensor channel's readings carry (41_routing.md R140). -/
def sensorId (n : Sensor) : ReadingId := BitVec.ofNat 2 (sensorNumber n)

/-- The opcode of `ConfigureSensorN`, `0x04 + N` (40_dispatch.md R106). -/
def configureOpcode (n : Sensor) : Byte := 0x04 + BitVec.ofNat 8 (sensorNumber n)

/-- `period[n]` (10_state.md R24). -/
def getPeriod (p : Periods) : Sensor → Word16
  | .s1 => p.s1
  | .s2 => p.s2
  | .s3 => p.s3

/-- The three registers with `period[n]` replaced (10_state.md R24). -/
def putPeriod (p : Periods) (n : Sensor) (v : Word16) : Periods :=
  match n with
  | .s1 => { p with s1 := v }
  | .s2 => { p with s2 := v }
  | .s3 => { p with s3 := v }

end Sys2Proof.Machine
end

