-- ==== Sys2Proof/Machine/Ops.lean ====
section
/-! DEFINITION. The operations the commands and events share: emitting outputs, the FIFO primitives, the flush procedure,
the register writes, and reset. There is no operation that takes an exception or returns from one: the block has none
(60_exceptions.md R210, R214). -/

namespace Sys2Proof.Machine

/-- `emit X` for each of a list, in order (00_scope.md R13, R14). -/
def emit (os : List OutputEvent) (s : State) : State := { s with outputs := s.outputs ++ os }

/-- `BufAppend(s, e)`: evict the oldest entry when full, then add at the tail (43_reading_buffer.md R190). -/
def bufAppend (e : Entry) (s : State) : State :=
  { s with buf := (if s.cfg.capacity ≤ s.buf.length then s.buf.tail else s.buf) ++ [e] }

/-- `BufDrain(s)`: every buffered byte in arrival order, and the buffer emptied (43_reading_buffer.md R191). -/
def bufDrain (s : State) : List Byte × State := (s.buf.flatten, { s with buf := [] })

/-- `Flush(tag)`: drain the buffer and send one frame of header and entries (41_routing.md R146, R147); the count is the
drained byte length divided by the entry width (43_reading_buffer.md R194). -/
def flush (tag : Byte) (s : State) : State :=
  let drained := bufDrain s
  emit [.tx (flushFrame tag (drained.1.length / entryWidth s.cfg) drained.1)] drained.2

/-- `s.period[n] <- p` (10_state.md R24). -/
def setPeriod (n : Sensor) (p : Word16) (s : State) : State := { s with period := putPeriod s.period n p }

/-- `s.batchInterval <- i` (10_state.md R25). -/
def setBatchInterval (i : Word16) (s : State) : State := { s with batchInterval := i }

/-- The three `SensorRestart` outputs of every StartModeN (40_dispatch.md R102 to R104, D21). -/
def restartAll : List OutputEvent := [.sensorRestart .s1, .sensorRestart .s2, .sensorRestart .s3]

/-- The effect StartModeN share: the mode is written, the control outputs and then the acknowledgement are emitted
(40_dispatch.md R102 to R104). -/
def startMode (m : Mode) (op : Byte) (control : List OutputEvent) (s : State) : State :=
  emit (restartAll ++ control ++ [.tx (ackFrame s.cfg op)]) (setMode m s)

/-- `ConfigureSensor(N, data)` (40_dispatch.md R106). -/
def configureSensor (n : Sensor) (data : Option Byte) (s : State) : State :=
  emit [.sensorConfigure n (clampedMs data), .tx (ackFrame s.cfg (configureOpcode n))]
    (setPeriod n (clampedMs data) s)

/-- An input that is ignored: no field is written and nothing is emitted (40_dispatch.md R110, R111). -/
def ignoreInput (s : State) : State := s

/-- The reset of every field of 10_state.md R20 (70_reset_and_hazards.md R240). The configuration is fixed when the block
is built (R242); what was emitted stays emitted and what is still to be presented stays so (log 13). -/
def resetBlock (s : State) : State :=
  { s with
    mode := .noMode
    started := false
    period := s.cfg.periodReset
    batchInterval := s.cfg.batchReset
    buf := [] }

end Sys2Proof.Machine
end

