-- ==== Sys2Proof/Machine/ConfigCommands.lean ====
section
/-! DEFINITION. The configuration commands (40_dispatch.md R106 to R109). -/

namespace Sys2Proof.Machine

/-- `CFGS1` (40_dispatch.md R106). -/
def execCfgs1 (data : Option Byte) (s : State) : Result := .next (configureSensor .s1 data s)

/-- `CFGS2` (40_dispatch.md R107). -/
def execCfgs2 (data : Option Byte) (s : State) : Result := .next (configureSensor .s2 data s)

/-- `CFGS3` (40_dispatch.md R108). -/
def execCfgs3 (data : Option Byte) (s : State) : Result := .next (configureSensor .s3 data s)

/-- `CFGBATCH` (40_dispatch.md R109): the interval is set, the timer told of it and not re-armed. -/
def execCfgbatch (data : Option Byte) (s : State) : Result :=
  .next (emit [.flushIntervalSet (clampedMs data), .tx (ackFrame s.cfg 0x08)] (setBatchInterval (clampedMs data) s))

end Sys2Proof.Machine
end

