-- ==== Sys2Proof/Machine/DataCommand.lean ====
section
/-! DEFINITION. The data command (40_dispatch.md R105). -/

namespace Sys2Proof.Machine

/-- `GETDATA` (40_dispatch.md R105): a forced flush, in every mode. -/
def execGetdata (_data : Option Byte) (s : State) : Result := .next (flush Config.forcedTag s)

end Sys2Proof.Machine
end

