-- ==== Sys2Proof/Machine/Ignored.lean ====
section
/-! DEFINITION. The opcodes that are ignored, and the empty chunk (40_dispatch.md R110, R111). -/

namespace Sys2Proof.Machine

/-- `reserved_0x09` (30_encoding.md R74, 40_dispatch.md R110). -/
def execReserved09 (_data : Option Byte) (s : State) : Result := .next (ignoreInput s)

/-- `reserved_0x0A` (30_encoding.md R74, 40_dispatch.md R110). -/
def execReserved0A (_data : Option Byte) (s : State) : Result := .next (ignoreInput s)

/-- `(unrecognized)` 0x0B (40_dispatch.md R110). -/
def execUnrecognized0B (_data : Option Byte) (s : State) : Result := .next (ignoreInput s)

/-- `(unrecognized)` 0x0C..0x0F (40_dispatch.md R110). -/
def execUnrecognized0C (_op : Byte) (_data : Option Byte) (s : State) : Result := .next (ignoreInput s)

/-- `(unrecognized)` 0x10..0x1F (40_dispatch.md R110). -/
def execUnrecognized10 (_op : Byte) (_data : Option Byte) (s : State) : Result := .next (ignoreInput s)

/-- `(unrecognized)` 0x20..0x3F (40_dispatch.md R110). -/
def execUnrecognized20 (_op : Byte) (_data : Option Byte) (s : State) : Result := .next (ignoreInput s)

/-- `(unrecognized)` 0x40..0x7F (40_dispatch.md R110). -/
def execUnrecognized40 (_op : Byte) (_data : Option Byte) (s : State) : Result := .next (ignoreInput s)

/-- `(unrecognized)` 0x80..0xFF (40_dispatch.md R110). -/
def execUnrecognized80 (_op : Byte) (_data : Option Byte) (s : State) : Result := .next (ignoreInput s)

/-- The empty chunk (40_dispatch.md R111). -/
def onEmptyChunk (s : State) : Result := .next (ignoreInput s)

end Sys2Proof.Machine
end

