-- ==== Sys2Proof/Machine/ModeCommands.lean ====
section
/-! DEFINITION. The mode commands (40_dispatch.md R101 to R104). -/

namespace Sys2Proof.Machine

/-- `STOP` (40_dispatch.md R101): the first since reset marks `started` and answers the frequencies frame, leaving the
mode; a later one sets NoMode and is acknowledged. -/
def execStop (_data : Option Byte) (s : State) : Result :=
  if s.started then .next (emit [.tx (ackFrame s.cfg 0x00)] (setMode .noMode s))
  else .next (emit [.tx (frequenciesFrame s.period s.batchInterval)] (setStarted s))

/-- `START1` (40_dispatch.md R102). -/
def execStart1 (_data : Option Byte) (s : State) : Result := .next (startMode .direct 0x01 [] s)

/-- `START2` (40_dispatch.md R103): the flush timer is (re)armed with `batchInterval`. -/
def execStart2 (_data : Option Byte) (s : State) : Result :=
  .next (startMode .batch 0x02 [.flushTimerArm s.batchInterval] s)

/-- `START3` (40_dispatch.md R104). -/
def execStart3 (_data : Option Byte) (s : State) : Result := .next (startMode .onDemand 0x03 [] s)

end Sys2Proof.Machine
end

