-- ==== Sys2Proof/Machine/Dispatch.lean ====
section
/-! DEFINITION. The dispatch of a command to its meaning (40_dispatch.md R100). -/

namespace Sys2Proof.Machine

def exec (i : Instr) (s : State) : Host.Outcome State Fault Refusal :=
  match i with
  | .stop d => Sys2Proof.Machine.execStop d s
  | .start1 d => Sys2Proof.Machine.execStart1 d s
  | .start2 d => Sys2Proof.Machine.execStart2 d s
  | .start3 d => Sys2Proof.Machine.execStart3 d s
  | .getdata d => Sys2Proof.Machine.execGetdata d s
  | .cfgs1 d => Sys2Proof.Machine.execCfgs1 d s
  | .cfgs2 d => Sys2Proof.Machine.execCfgs2 d s
  | .cfgs3 d => Sys2Proof.Machine.execCfgs3 d s
  | .cfgbatch d => Sys2Proof.Machine.execCfgbatch d s
  | .reserved09 d => Sys2Proof.Machine.execReserved09 d s
  | .reserved0A d => Sys2Proof.Machine.execReserved0A d s
  | .unrecognized0B d => Sys2Proof.Machine.execUnrecognized0B d s
  | .unrecognized0C op d => Sys2Proof.Machine.execUnrecognized0C op d s
  | .unrecognized10 op d => Sys2Proof.Machine.execUnrecognized10 op d s
  | .unrecognized20 op d => Sys2Proof.Machine.execUnrecognized20 op d s
  | .unrecognized40 op d => Sys2Proof.Machine.execUnrecognized40 op d s
  | .unrecognized80 op d => Sys2Proof.Machine.execUnrecognized80 op d s

end Sys2Proof.Machine
end

