-- ==== Sys2Proof/Machine/Events.lean ====
section
/-! DEFINITION. The input events (60_exceptions.md R212): what the block does with each, and with none. -/

namespace Sys2Proof.Machine

/-- `RxChunk(b)`: parse the chunk and run its command; an empty chunk is ignored (40_dispatch.md R100, R111). -/
def onRxChunk (bytes : List Byte) (s : State) : Result :=
  match decode bytes with
  | .ok i => exec i s
  | .error .emptyChunk => onEmptyChunk s

/-- `Reading(id, value, ts)`: routed by mode (41_routing.md R140 to R144). -/
def onReading (id : ReadingId) (value : ReadingValue) (ts : Nat) (s : State) : Result :=
  match s.mode with
  | .noMode => .next (ignoreInput s)
  | .direct => .next (emit [.tx (directFrame s.cfg ts id value)] s)
  | .batch => .next (bufAppend (pack s.cfg ts id value) s)
  | .onDemand => .next (bufAppend (pack s.cfg ts id value) s)

/-- `FlushTick`: a periodic flush in Batch, nothing in any other mode (41_routing.md R145). -/
def onFlushTick (s : State) : Result :=
  match s.mode with
  | .batch => .next (flush Config.periodicTag s)
  | .noMode => .next (ignoreInput s)
  | .direct => .next (ignoreInput s)
  | .onDemand => .next (ignoreInput s)

/-- `Reset` (70_reset_and_hazards.md R240). -/
def onReset (s : State) : Result := .next (resetBlock s)

/-- The block's reaction to an input event (60_exceptions.md R212). -/
def onEvent (e : InputEvent) (s : State) : Result :=
  match e with
  | .rxChunk bytes => onRxChunk bytes s
  | .reading id value ts => onReading id value ts s
  | .flushTick => onFlushTick s
  | .reset => onReset s

/-- No event is presented: the block waits, unchanged (log 1). -/
def onIdle (s : State) : Result := .next s

/-- The state with the first input event taken from the schedule. -/
def takeInput (rest : List InputEvent) (s : State) : State := { s with inputs := rest }

/-- The state with an input event presented ahead of the schedule. -/
def presentInput (e : InputEvent) (s : State) : State := { s with inputs := e :: s.inputs }

end Sys2Proof.Machine
end

