-- ==== Sys2Proof/Machine/Step.lean ====
section
/-! DEFINITION. One step: the next input event of the schedule is taken and handled as one atomic step (20_memory.md
R56, R61). -/

namespace Sys2Proof.Machine

/-- One step of the machine (60_exceptions.md R212, R213). -/
def step (s : State) : Host.Outcome State Fault Refusal :=
  match s.inputs with
  | [] => onIdle s
  | e :: rest => onEvent e (takeInput rest s)

/-- The state in which the command of an opcode-table word is the very next input event, as a chunk (log 2, log 12). -/
def State.withFetchWord (s : State) (nbits w : Nat) : State := presentInput (.rxChunk (chunkOfWord nbits w)) s

end Sys2Proof.Machine
end

