-- ==== Sys2Proof/Machine/Environment.lean ====
section
/-! DEFINITION. A COMPANION of the block, which `step` does not call: the contract of the agents outside it that its
outputs drive and that feed its inputs, the three sensor channels and the flush timer's interval (60_exceptions.md R216 to
R220, R222). "They bind the environment, not the block" (60_exceptions.md section 5). Timer phases are timing and are left
out (00_scope.md R5). -/

namespace Sys2Proof.Machine

/-- A sensor channel (60_exceptions.md R217): its value, its timestamp accumulator and its period. -/
structure SensorChannel where
  value : ReadingValue
  accumulatedTime : Nat
  period : Word16
deriving DecidableEq, Repr

/-- The agents outside the block that its control outputs address (60_exceptions.md R216). -/
structure Environment where
  s1 : SensorChannel
  s2 : SensorChannel
  s3 : SensorChannel
  /-- The interval the flush timer runs with from its next arming or tick on. -/
  flushInterval : Word16
deriving DecidableEq, Repr

/-- Sensor channel `n`. -/
def getChannel (env : Environment) : Sensor → SensorChannel
  | .s1 => env.s1
  | .s2 => env.s2
  | .s3 => env.s3

/-- The environment with sensor channel `n` replaced. -/
def putChannel (env : Environment) (n : Sensor) (ch : SensorChannel) : Environment :=
  match n with
  | .s1 => { env with s1 := ch }
  | .s2 => { env with s2 := ch }
  | .s3 => { env with s3 := ch }

/-- The draw `uniform(-30, +29)`: the free draw `k` of 0..59 stands for the integer `k - 30` (60_exceptions.md R217,
93_implementation_defined.md I5). -/
def drawOffset (k : Fin 60) : Int := (k.val : Int) - 30

/-- `clamp(current + draw, 0, 1023)` (60_exceptions.md R217, 90_conflicts.md C6). -/
def nextValue (current : ReadingValue) (k : Fin 60) : ReadingValue :=
  BitVec.ofNat 10 (max 0 (min ((current.toNat : Int) + drawOffset k) 1023)).toNat

/-- One tick of a sensor channel (60_exceptions.md R217): the channel after it, and the reading it presents to the block.
Whether the timestamp is the accumulator before or after its advance is free (93_implementation_defined.md I6, log 15). -/
def sensorTick (n : Sensor) (k : Fin 60) (ch : SensorChannel) : SensorChannel × InputEvent :=
  let advanced := ch.accumulatedTime + ch.period.toNat
  let stamp := if Config.timestampAfterAdvance then advanced else ch.accumulatedTime
  let value := nextValue ch.value k
  ({ ch with value := value, accumulatedTime := advanced }, .reading (sensorId n) value stamp)

/-- `restart()`: the accumulator is zeroed, the value kept (60_exceptions.md R218). -/
def restartChannel (ch : SensorChannel) : SensorChannel := { ch with accumulatedTime := 0 }

/-- `configure(periodMs)`: the period is set (60_exceptions.md R219); the block has clamped it. -/
def configureChannel (p : Word16) (ch : SensorChannel) : SensorChannel := { ch with period := p }

/-- `frequency()` of a channel (60_exceptions.md R220). -/
def channelFrequency (ch : SensorChannel) : Byte := freqOf ch.period

/-- What one output of the block does to the environment (60_exceptions.md R216, R221; 00_scope.md R14). -/
def receiveOutput (env : Environment) : OutputEvent → Environment
  | .tx _ => env
  | .sensorConfigure n p => putChannel env n (configureChannel p (getChannel env n))
  | .sensorRestart n => putChannel env n (restartChannel (getChannel env n))
  | .flushTimerArm i => { env with flushInterval := i }
  | .flushIntervalSet i => { env with flushInterval := i }

/-- The outputs of a step, received in order. -/
def receiveOutputs (env : Environment) (os : List OutputEvent) : Environment := os.foldl receiveOutput env

/-- The environment at the construction of a block with configuration `c`: "SensorSource instances are created once at
engine construction" (70_reset_and_hazards.md R240); the initial values are OPEN (60_exceptions.md R217, D37).
DESIGN CHOICE (log 15), unsafe for a claim about the companion: the flush timer holds `c.batchReset` before any
`FlushTimerArm` or `FlushIntervalSet`, and the accumulators start at 0; the spec gives neither (R216, R217), and
`BATCH_RESET_MS` only to the block's register (10_state.md R25). DEDUCED (log 15): a channel's period is the reset value of
the block's copy of it, which "holds the value the source keeps inside the sensor" (10_state.md R24). -/
def buildEnvironment (c : Cfg) : Environment where
  s1 := ⟨Config.sensorInitValue .s1, 0, c.periodReset.s1⟩
  s2 := ⟨Config.sensorInitValue .s2, 0, c.periodReset.s2⟩
  s3 := ⟨Config.sensorInitValue .s3, 0, c.periodReset.s3⟩
  flushInterval := c.batchReset

/-- The environment runs with the periods and the interval the block's registers hold. -/
def Lockstep (env : Environment) (s : State) : Prop :=
  (∀ n, (getChannel env n).period = getPeriod s.period n) ∧ env.flushInterval = s.batchInterval

end Sys2Proof.Machine
end

