-- ==== Sys2Proof/Safety.lean ====
section
/-! DEFINITION. What counts as a legal state and a safe outcome, in the terms the statements use (10_state.md R32). -/

namespace Sys2Proof.Machine

/-- An entry of the FIFO is a packed reading: `W` bytes (10_state.md R26), the padding bits zero (30_encoding.md R79). -/
abbrev EntryLegal (c : Cfg) (e : Entry) : Prop := e.length = entryWidth c ∧ beNat e < 2 ^ (c.tsBits + 12)

/-- The FIFO's form: at most `C` entries, each a packed reading (10_state.md R32, 43_reading_buffer.md R193). -/
abbrev BufLegal (c : Cfg) (buf : List Entry) : Prop := buf.length ≤ c.capacity ∧ ∀ e ∈ buf, EntryLegal c e

/-- Every period register holds a legal value; the upper bound 65535 is its width (10_state.md R24). -/
abbrev PeriodsLegal (p : Periods) : Prop :=
  Config.minPeriodMs ≤ p.s1.toNat ∧ Config.minPeriodMs ≤ p.s2.toNat ∧ Config.minPeriodMs ≤ p.s3.toNat

/-- The invariants of 10_state.md R32. That exactly one mode is active is the type of `mode`. -/
abbrev Legal (s : State) : Prop :=
  BufLegal s.cfg s.buf ∧ PeriodsLegal s.period ∧ Config.minPeriodMs ≤ s.batchInterval.toNat

/-- A safe outcome: the machine goes on, in a legal state. -/
def SafeOutcome : Result → Prop
  | .next t => Legal t
  | .fault _ => False
  | .refused _ => False

/-- `k` steps, stopping at a fault or a refusal: the run of the host's `Host.Core.run` at this machine's own types. -/
def runSteps : Nat → State → Result
  | 0, s => .next s
  | k + 1, s =>
    match step s with
    | .next t => runSteps k t
    | .fault r => .fault r
    | .refused r => .refused r

/-- The `Tx` frames among output events, in order. -/
def txFrames : List OutputEvent → List (List Byte)
  | [] => []
  | .tx f :: os => f :: txFrames os
  | .sensorConfigure _ _ :: os => txFrames os
  | .sensorRestart _ :: os => txFrames os
  | .flushTimerArm _ :: os => txFrames os
  | .flushIntervalSet _ :: os => txFrames os

/-- The output events that steps from `s` to `t` added: those of `t` after the ones of `s`. -/
def newOutputs (s t : State) : List OutputEvent := t.outputs.drop s.outputs.length

end Sys2Proof.Machine
end

