-- ==== Sys2Proof/Certificates/Slice0/Obligations.lean ====
section
/-! DEFINITION. The statements for the provers. Output events and the environment's schedule stand in State's own fields
`outputs` and `inputs` (logs 1 and 3), so "emits" reads "appends to `outputs`", and "on an input event" reads "on a state
whose schedule begins with it". Where a clause rests on one of the spec's own decisions (92_eei_decisions.md) the docstring
names it. -/

open Sys2Proof Sys2Proof.Machine

/-! ### Commands and chunks -/

/-- Decoding the chunk of a well-formed command gives the command back, with its opcode and its data byte, present or
absent, at every value the encoding admits (30_encoding.md R70, R73, R85). -/
def Obligations.DecodeOfEncodeIsTheCommand : Prop :=
  ∀ i : Instr, i.wellFormed = true → decode (encode i) = .ok i

/-- What the decoder reads from a chunk encodes to the chunk's first two bytes, and is well formed: no bit of them is
dropped, and nothing after them is read (30_encoding.md R70, R71). -/
def Obligations.EncodeOfDecodeIsTheReadBytes : Prop :=
  ∀ (chunk : List Byte) (i : Instr), decode chunk = .ok i → encode i = chunk.take 2 ∧ i.wellFormed = true

/-- Parsing a chunk (30_encoding.md R71): NONE on the empty chunk, data 0 on a 1-byte chunk, the first two bytes of any
longer one; and the decoder reads from a chunk the opcode and data that parsing reads. That the tail is ignored is the
spec's decision D26. -/
def Obligations.ParseReadsTheHeadOfAChunk : Prop :=
  parse [] = none ∧
  (∀ op : Byte, parse [op] = some (op, 0)) ∧
  (∀ (op d : Byte) (rest : List Byte), parse (op :: d :: rest) = some (op, d)) ∧
  (∀ chunk : List Byte, parse chunk =
    match decode chunk with
    | .ok i => some (i.opcode, i.data.getD 0)
    | .error .emptyChunk => none)

/-- The opcode map (30_encoding.md R73, R75): each opcode selects its row of the opcode table, with the chunk's data byte,
present or absent. -/
def Obligations.OpcodeMapSelectsTheRow : Prop :=
  ∀ (op : Byte) (d : Option Byte),
    decode (0x00 :: d.toList) = .ok (.stop d) ∧ decode (0x01 :: d.toList) = .ok (.start1 d) ∧
    decode (0x02 :: d.toList) = .ok (.start2 d) ∧ decode (0x03 :: d.toList) = .ok (.start3 d) ∧
    decode (0x04 :: d.toList) = .ok (.getdata d) ∧ decode (0x05 :: d.toList) = .ok (.cfgs1 d) ∧
    decode (0x06 :: d.toList) = .ok (.cfgs2 d) ∧ decode (0x07 :: d.toList) = .ok (.cfgs3 d) ∧
    decode (0x08 :: d.toList) = .ok (.cfgbatch d) ∧ decode (0x09 :: d.toList) = .ok (.reserved09 d) ∧
    decode (0x0A :: d.toList) = .ok (.reserved0A d) ∧ decode (0x0B :: d.toList) = .ok (.unrecognized0B d) ∧
    (0x0C ≤ op.toNat ∧ op.toNat ≤ 0x0F → decode (op :: d.toList) = .ok (.unrecognized0C op d)) ∧
    (0x10 ≤ op.toNat ∧ op.toNat ≤ 0x1F → decode (op :: d.toList) = .ok (.unrecognized10 op d)) ∧
    (0x20 ≤ op.toNat ∧ op.toNat ≤ 0x3F → decode (op :: d.toList) = .ok (.unrecognized20 op d)) ∧
    (0x40 ≤ op.toNat ∧ op.toNat ≤ 0x7F → decode (op :: d.toList) = .ok (.unrecognized40 op d)) ∧
    (0x80 ≤ op.toNat → decode (op :: d.toList) = .ok (.unrecognized80 op d))

/-- A few chunks written out from 30_encoding.md R73 and R84 decode to the commands they stand for. -/
def Obligations.WrittenOutChunksDecode : Prop :=
  decode [0b00000000#8] = .ok (.stop none) ∧
  decode [0b00000010#8, 0b01110111#8] = .ok (.start2 (some 0x77)) ∧
  decode [0b00000100#8] = .ok (.getdata none) ∧
  decode [0b00000101#8, 0b00110010#8] = .ok (.cfgs1 (some 50)) ∧
  decode [0b00001000#8, 0b11001000#8] = .ok (.cfgbatch (some 200)) ∧
  decode [0b00001010#8] = .ok (.reserved0A none) ∧
  decode [0b11111111#8, 0b00000101#8] = .ok (.unrecognized80 0xFF (some 5))

/-- A word of the opcode table, stored as the next chunk, is the command the very next step runs (logs 2 and 12; the
model's interface, no rule of the spec). -/
def Obligations.FetchWordIsTheNextCommand : Prop :=
  ∀ (s : State) (nbits w : Nat) (i : Instr), decodeTableWord nbits w = some i →
    step (s.withFetchWord nbits w) = exec i s

/-! ### The step -/

/-- On a chunk that decodes to a command the step is that command's meaning, on the state with the chunk taken from the
schedule (40_dispatch.md R100). -/
def Obligations.StepRunsTheDecodedCommand : Prop :=
  ∀ (s : State) (chunk : List Byte) (rest : List InputEvent) (i : Instr),
    s.inputs = .rxChunk chunk :: rest → decode chunk = .ok i → i.wellFormed = true →
    step s = exec i { s with inputs := rest }

/-- "Malformed input (empty byte chunk) is ignored entirely" (40_dispatch.md R111): nothing is written or emitted. -/
def Obligations.EmptyChunkIsIgnored : Prop :=
  ∀ (s : State) (rest : List InputEvent), s.inputs = .rxChunk [] :: rest →
    step s = .next { s with inputs := rest }

/-- The model's choice (log 1), no rule of the spec: with no event presented a step leaves the state as it is. -/
def Obligations.NothingPresentedNothingChanges : Prop :=
  ∀ s : State, s.inputs = [] → step s = .next s

/-- The block never stops (60_exceptions.md R210): in every state, reachable or not, a step has a next state and a list of
outputs added to the earlier ones, and so has every command. -/
def Obligations.EveryStepHasANextState : Prop :=
  (∀ s : State, ∃ (t : State) (os : List OutputEvent), step s = .next t ∧ t.outputs = s.outputs ++ os) ∧
  (∀ (i : Instr) (s : State), ∃ (t : State) (os : List OutputEvent), exec i s = .next t ∧ t.outputs = s.outputs ++ os)

/-- A chunk's bytes from index 2 on change nothing: two commands delivered in one chunk run only the first
(70_reset_and_hazards.md R247, 30_encoding.md R71; the spec's decision D26). -/
def Obligations.OnlyTheFirstCommandOfAChunkRuns : Prop :=
  ∀ (s : State) (op d : Byte) (tail : List Byte) (rest : List InputEvent),
    step { s with inputs := .rxChunk (op :: d :: tail) :: rest } = step { s with inputs := .rxChunk [op, d] :: rest }

/-! ### What each command does: the whole next state, so its result and its frame at once -/

/-- `STOP` (40_dispatch.md R101). The first since reset sets `started`, leaves the mode and answers the frequencies frame;
a later one sets NoMode and is acknowledged. That neither touches `buf` is the spec's decision D20. -/
def Obligations.StopMarksStartedOrLeavesTheMode : Prop :=
  ∀ (d : Option Byte) (s : State),
    (s.started = false → exec (.stop d) s = .next
      { s with
        started := true
        outputs := s.outputs ++ [.tx [0x00, freqOf s.period.s1, freqOf s.period.s2, freqOf s.period.s3,
          rateOf s.batchInterval]] }) ∧
    (s.started = true → exec (.stop d) s = .next
      { s with mode := .noMode, outputs := s.outputs ++ [.tx [0x00, s.cfg.successCode]] })

/-- `START1` (40_dispatch.md R102). The three SensorRestart outputs are the spec's decision D21. -/
def Obligations.Start1EntersDirect : Prop :=
  ∀ (d : Option Byte) (s : State), exec (.start1 d) s = .next
    { s with
      mode := .direct
      outputs := s.outputs ++ [.sensorRestart .s1, .sensorRestart .s2, .sensorRestart .s3,
        .tx [0x01, s.cfg.successCode]] }

/-- `START2` (40_dispatch.md R103). The SensorRestart outputs are the spec's decision D21. -/
def Obligations.Start2EntersBatchAndArmsTheTimer : Prop :=
  ∀ (d : Option Byte) (s : State), exec (.start2 d) s = .next
    { s with
      mode := .batch
      outputs := s.outputs ++ [.sensorRestart .s1, .sensorRestart .s2, .sensorRestart .s3,
        .flushTimerArm s.batchInterval, .tx [0x02, s.cfg.successCode]] }

/-- `START3` (40_dispatch.md R104). The SensorRestart outputs are the spec's decision D21. -/
def Obligations.Start3EntersOnDemand : Prop :=
  ∀ (d : Option Byte) (s : State), exec (.start3 d) s = .next
    { s with
      mode := .onDemand
      outputs := s.outputs ++ [.sensorRestart .s1, .sensorRestart .s2, .sensorRestart .s3,
        .tx [0x03, s.cfg.successCode]] }

/-- `GETDATA` (40_dispatch.md R105), in every mode and state: the buffer is emptied and one frame goes out, the tag 0x04, a
big-endian 16-bit count and the buffered bytes in arrival order. Where every entry has the entry width and their number
fits 16 bits, the count is the number of entries and the frame has `3 + W * n` bytes. -/
def Obligations.GetDataFlushesInEveryMode : Prop :=
  ∀ (d : Option Byte) (s : State), ∃ n : Nat,
    exec (.getdata d) s = .next
      { s with
        buf := []
        outputs := s.outputs ++ [.tx (0x04 :: BitVec.ofNat 8 (n / 256) :: BitVec.ofNat 8 n :: s.buf.flatten)] } ∧
    n = s.buf.flatten.length / ((s.cfg.tsBits + 19) / 8) ∧
    ((∀ e ∈ s.buf, e.length = (s.cfg.tsBits + 19) / 8) → s.buf.length ≤ 65535 →
      n = s.buf.length ∧ n < 65536 ∧
      (0x04 :: BitVec.ofNat 8 (n / 256) :: BitVec.ofNat 8 n :: s.buf.flatten).length =
        3 + (s.cfg.tsBits + 19) / 8 * n)

/-- `CFGS1`, `CFGS2`, `CFGS3` (40_dispatch.md R106, R107, R108): the one period register is set to the data byte, absent
read as 0, clamped up to 1; the sensor is told, then the command acknowledged. The unsigned reading is the spec's decision
D8, the minimum 1 its decision D9. -/
def Obligations.ConfigureSensorSetsItsPeriod : Prop :=
  ∀ (d : Option Byte) (s : State) (p : Word16), p = BitVec.ofNat 16 (max (d.getD 0).toNat 1) →
    exec (.cfgs1 d) s = .next
      { s with
        period := { s.period with s1 := p }
        outputs := s.outputs ++ [.sensorConfigure .s1 p, .tx [0x05, s.cfg.successCode]] } ∧
    exec (.cfgs2 d) s = .next
      { s with
        period := { s.period with s2 := p }
        outputs := s.outputs ++ [.sensorConfigure .s2 p, .tx [0x06, s.cfg.successCode]] } ∧
    exec (.cfgs3 d) s = .next
      { s with
        period := { s.period with s3 := p }
        outputs := s.outputs ++ [.sensorConfigure .s3 p, .tx [0x07, s.cfg.successCode]] }

/-- `CFGBATCH` (40_dispatch.md R109): the interval is set and the scheduler told, with no re-arm. The minimum 1 is the
spec's decision D9, the missing re-arm its decision D22. -/
def Obligations.ConfigureBatchRateSetsTheInterval : Prop :=
  ∀ (d : Option Byte) (s : State) (i : Word16), i = BitVec.ofNat 16 (max (d.getD 0).toNat 1) →
    exec (.cfgbatch d) s = .next
      { s with
        batchInterval := i
        outputs := s.outputs ++ [.flushIntervalSet i, .tx [0x08, s.cfg.successCode]] }

/-- Unrecognized encodings (30_encoding.md R75): on a chunk whose opcode is 0x0B or above the step writes nothing, emits
nothing and goes on, and so does each of the six rows of the opcode table for such opcodes. -/
def Obligations.UnrecognizedOpcodesAreIgnored : Prop :=
  (∀ (s : State) (op : Byte) (tail : List Byte) (rest : List InputEvent), 0x0B ≤ op.toNat →
    s.inputs = .rxChunk (op :: tail) :: rest → step s = .next { s with inputs := rest }) ∧
  (∀ (op : Byte) (d : Option Byte) (s : State),
    exec (.unrecognized0B d) s = .next s ∧ exec (.unrecognized0C op d) s = .next s ∧
    exec (.unrecognized10 op d) s = .next s ∧ exec (.unrecognized20 op d) s = .next s ∧
    exec (.unrecognized40 op d) s = .next s ∧ exec (.unrecognized80 op d) s = .next s)

/-- The outbound tags 0x09 and 0x0A sent inbound change nothing and emit nothing (30_encoding.md R74, 40_dispatch.md R110);
that they are treated as unrecognized opcodes is the spec's decision D38. -/
def Obligations.ReservedTagsAreIgnoredInbound : Prop :=
  (∀ (s : State) (op : Byte) (tail : List Byte) (rest : List InputEvent), op = 0x09 ∨ op = 0x0A →
    s.inputs = .rxChunk (op :: tail) :: rest → step s = .next { s with inputs := rest }) ∧
  (∀ (d : Option Byte) (s : State), exec (.reserved09 d) s = .next s ∧ exec (.reserved0A d) s = .next s)

/-! ### Readings, ticks and reset -/

/-- A reading in NoMode is discarded; in Batch and in OnDemand its packed entry is appended, the oldest entry evicted when
the buffer is full, and nothing is emitted (41_routing.md R141, R143, R144). -/
def Obligations.ReadingIsDiscardedOrBuffered : Prop :=
  ∀ (s : State) (id : ReadingId) (value : ReadingValue) (ts : Nat) (rest : List InputEvent),
    s.inputs = .reading id value ts :: rest →
    (s.mode = .noMode → step s = .next { s with inputs := rest }) ∧
    (s.mode = .batch ∨ s.mode = .onDemand → step s = .next
      { s with
        inputs := rest
        buf := (if s.cfg.capacity ≤ s.buf.length then s.buf.tail else s.buf) ++ [pack s.cfg ts id value] })

/-- A reading in Direct is sent at once, one frame of the tag 0x09 and the packed reading, and nothing is written
(41_routing.md R142). The tag is the spec's decision D16; that `buf` is left alone its decision D20. -/
def Obligations.ReadingInDirectIsSentAtOnce : Prop :=
  ∀ (s : State) (id : ReadingId) (value : ReadingValue) (ts : Nat) (rest : List InputEvent),
    s.inputs = .reading id value ts :: rest → s.mode = .direct →
    step s = .next { s with inputs := rest, outputs := s.outputs ++ [.tx (0x09 :: pack s.cfg ts id value)] }

/-- A flush tick in Batch drains the buffer into one frame tagged 0x0A whose count is the drained bytes divided by the
entry width; in any other mode it does nothing, whatever `buf` holds (41_routing.md R145, R146; 70_reset_and_hazards.md
R248). The tag is the spec's decision D16, the tick ignored outside Batch its decision D18. -/
def Obligations.FlushTickFlushesInBatchOnly : Prop :=
  ∀ (s : State) (rest : List InputEvent), s.inputs = .flushTick :: rest →
    (s.mode = .batch → ∃ n : Nat, n = s.buf.flatten.length / ((s.cfg.tsBits + 19) / 8) ∧
      step s = .next
        { s with
          inputs := rest
          buf := []
          outputs := s.outputs ++ [.tx (0x0A :: BitVec.ofNat 8 (n / 256) :: BitVec.ofNat 8 n :: s.buf.flatten)] }) ∧
    (s.mode ≠ .batch → step s = .next { s with inputs := rest })

/-- A flush of an empty buffer still sends its header, on the forced and on the periodic path (41_routing.md R147). The
periodic path is the spec's decision D19. -/
def Obligations.FlushOfAnEmptyBufferSendsItsHeader : Prop :=
  ∀ (s : State) (d : Option Byte) (rest : List InputEvent), s.buf = [] →
    exec (.getdata d) s = .next { s with outputs := s.outputs ++ [.tx [0x04, 0x00, 0x00]] } ∧
    (s.inputs = .flushTick :: rest → s.mode = .batch →
      step s = .next { s with inputs := rest, outputs := s.outputs ++ [.tx [0x0A, 0x00, 0x00]] })

/-- The Reset event puts every field of 10_state.md R20 at its reset value, in the middle of a run too, and emits nothing
(70_reset_and_hazards.md R240, R241). The values rest on the spec's decisions D6, D7 and D36; that what was emitted and
what is still to be presented stay is log 13. -/
def Obligations.ResetEventRestoresTheResetValues : Prop :=
  ∀ (s : State) (rest : List InputEvent), s.inputs = .reset :: rest →
    step s = .next
      { s with
        mode := .noMode
        started := false
        period := s.cfg.periodReset
        batchInterval := s.cfg.batchReset
        buf := []
        inputs := rest }

/-- The state after reset (70_reset_and_hazards.md R240): NoMode, not started, an empty buffer, the periods and the
interval at the block's OPEN parameters, nothing emitted. The values rest on the spec's decisions D6, D7 and D36. -/
def Obligations.ResetStateHoldsTheResetValues : Prop :=
  State.reset.mode = .noMode ∧ State.reset.started = false ∧ State.reset.buf = [] ∧
  State.reset.period = Config.cfg.periodReset ∧ State.reset.batchInterval = Config.cfg.batchReset ∧
  State.reset.cfg = Config.cfg ∧ State.reset.outputs = [] ∧ State.reset.inputs = []

/-! ### The frame encoder -/

/-- `pack` (42_frame_encoder.md R161): `W` bytes whose big-endian number is the truncated timestamp, the id and the value
in that order, the padding bits zero. The truncation is the spec's decision D13. -/
def Obligations.PackIsThePackedIntegerInWBytes : Prop :=
  ∀ (c : Cfg) (ts : Nat) (id : ReadingId) (value : ReadingValue),
    (pack c ts id value).length = (c.tsBits + 12 + 7) / 8 ∧
    beNat (pack c ts id value) = ts % 2 ^ c.tsBits * 2 ^ 12 + id.toNat * 2 ^ 10 + value.toNat ∧
    beNat (pack c ts id value) < 2 ^ (c.tsBits + 12)

/-- The last two bytes of an entry (30_encoding.md R79): the low value byte last, and before it the low four timestamp
bits, the id and the high two value bits. -/
def Obligations.EntryEndsWithIdAndValue : Prop :=
  ∀ (c : Cfg) (ts : Nat) (id : ReadingId) (value : ReadingValue), ∃ front : List Byte,
    pack c ts id value = front ++
      [BitVec.ofNat 8 (ts % 2 ^ c.tsBits % 16 * 16 + id.toNat * 4 + value.toNat / 256),
       BitVec.ofNat 8 (value.toNat % 256)]

/-- The entry width (00_scope.md R7), from the timestamp width alone. -/
def Obligations.EntryWidthFollowsTheTimestampWidth : Prop :=
  ∀ c c' : Cfg,
    entryWidth c = (c.tsBits + 12 + 7) / 8 ∧
    (c.tsBits ≤ 4 → entryWidth c = 2) ∧
    (5 ≤ c.tsBits ∧ c.tsBits ≤ 12 → entryWidth c = 3) ∧
    (13 ≤ c.tsBits ∧ c.tsBits ≤ 20 → entryWidth c = 4) ∧
    (c'.tsBits = c.tsBits + 8 → entryWidth c' = entryWidth c + 1)

/-- The pseudocode of `unpack(e)` (42_frame_encoder.md R169): with `P` the big-endian number of the bytes, the value is `P[9:0]`, the id
`P[11:10]` and the timestamp `P div 2^12`, below `2^TS_BITS` when the padding bits are 0; the number of bytes
`e0, ..., e(W-1)` is `e0 * 2^(8(W-1)) + ... + e(W-1)`. That the block does not use `unpack` is no part of it. -/
def Obligations.UnpackReadsTheFields : Prop :=
  (∀ e : Entry, (unpack e).1 = beNat e / 2 ^ 12 ∧ (unpack e).2.1.toNat = beNat e / 2 ^ 10 % 2 ^ 2 ∧
    (unpack e).2.2.toNat = beNat e % 2 ^ 10) ∧
  (∀ (c : Cfg) (e : Entry), beNat e < 2 ^ (c.tsBits + 12) → (unpack e).1 < 2 ^ c.tsBits) ∧
  beNat [] = 0 ∧
  (∀ (b : Byte) (bytes : List Byte), beNat (b :: bytes) = b.toNat * 2 ^ (8 * bytes.length) + beNat bytes)

/-- The round trip (42_frame_encoder.md R170): a decoder in lockstep gets back the id, the value and the timestamp modulo
`2^TS_BITS`; so the exact triple while the timestamp fits. -/
def Obligations.UnpackOfPackIsTheReading : Prop :=
  ∀ (c : Cfg) (ts : Nat) (id : ReadingId) (value : ReadingValue),
    unpack (pack c ts id value) = (ts % 2 ^ c.tsBits, id, value) ∧
    (ts < 2 ^ c.tsBits → unpack (pack c ts id value) = (ts, id, value))

/-- `freqOf` and `rateOf` (42_frame_encoder.md R165, R166): for a period of at least 1 and `q` the nearest integer to
`1000 / p`, halves up, they are `q` saturated at 15 and at 255. Rounding is the spec's decision D10, saturation its
decisions D11 and D12. -/
def Obligations.FrequencyAndRateRoundAndSaturate : Prop :=
  ∀ (p : Word16) (q : Nat), 1 ≤ p.toNat → 2 * p.toNat * q ≤ 2000 + p.toNat → 2000 + p.toNat < 2 * p.toNat * (q + 1) →
    freqOf p = BitVec.ofNat 8 (min q 15) ∧ rateOf p = BitVec.ofNat 8 (min q 255)

/-- A frequency fits 4 bits, and a longer period has no higher frequency and no higher rate (42_frame_encoder.md R165,
R166; 93_implementation_defined.md I20). -/
def Obligations.FrequencyFitsFourBitsAndFallsWithThePeriod : Prop :=
  ∀ p p' : Word16, 1 ≤ p.toNat → p.toNat ≤ p'.toNat →
    (freqOf p).toNat < 16 ∧ (freqOf p').toNat ≤ (freqOf p).toNat ∧ (rateOf p').toNat ≤ (rateOf p).toNat

/-- The frames byte for byte (42_frame_encoder.md R162, R163, R164, R167, R168). The tags are the spec's decisions D16 and
D17, the codes its OPEN parameters (D15), one byte a field its decision D34. -/
def Obligations.FramesByteForByte : Prop :=
  ∀ (c : Cfg) (op : Byte) (ts : Nat) (id : ReadingId) (value : ReadingValue) (p : Periods) (i : Word16)
    (tag : Byte) (n : Nat) (bytes : List Byte), n ≤ 65535 →
    directFrame c ts id value = 0x09 :: pack c ts id value ∧
    ackFrame c op = [op, c.successCode] ∧ failFrame c op = [op, c.errorCode] ∧
    frequenciesFrame p i = [0x00, freqOf p.s1, freqOf p.s2, freqOf p.s3, rateOf i] ∧
    flushFrame tag n bytes = tag :: BitVec.ofNat 8 (n / 256) :: BitVec.ofNat 8 (n % 256) :: bytes

/-! ### The FIFO -/

/-- `BufAppend` (43_reading_buffer.md R190): when the buffer is full its oldest entry is dropped, then the entry stands at
the tail; nothing else changes, and the length after is `min(len + 1, C)`. -/
def Obligations.AppendEvictsTheOldestWhenFull : Prop :=
  ∀ (s : State) (e : Entry),
    (s.cfg.capacity ≤ s.buf.length → bufAppend e s = { s with buf := s.buf.drop 1 ++ [e] }) ∧
    (s.buf.length < s.cfg.capacity → bufAppend e s = { s with buf := s.buf ++ [e] }) ∧
    (s.buf.length ≤ s.cfg.capacity → (bufAppend e s).buf.length = min (s.buf.length + 1) s.cfg.capacity)

/-- `BufDrain` (43_reading_buffer.md R191): every buffered byte in arrival order, and the buffer emptied; the bytes are
`W * len(buf)` where every entry has `W` bytes. -/
def Obligations.DrainReturnsEveryByteAndEmptiesTheBuffer : Prop :=
  ∀ s : State,
    (bufDrain s).2 = { s with buf := [] } ∧
    (s.buf = [] → (bufDrain s).1 = []) ∧
    (∀ (e : Entry) (es : List Entry), s.buf = e :: es → (bufDrain s).1 = e ++ (bufDrain { s with buf := es }).1) ∧
    ((∀ e ∈ s.buf, e.length = entryWidth s.cfg) → (bufDrain s).1.length = entryWidth s.cfg * s.buf.length)

/-- The eviction property (43_reading_buffer.md R192): after `k` appends to an empty buffer it holds the last `min(k, C)`
of them, in arrival order. -/
def Obligations.AppendsLeaveTheLastCEntries : Prop :=
  ∀ (s : State) (es : List Entry), s.buf = [] →
    (es.foldl (fun u e => bufAppend e u) s).buf = es.drop (es.length - s.cfg.capacity) ∧
    (es.foldl (fun u e => bufAppend e u) s).buf.length = min es.length s.cfg.capacity

/-- The count of a flush (43_reading_buffer.md R194): in a legal buffer the drained byte length divided by the entry width
is the number of entries, and the two header bytes spell it. -/
def Obligations.FlushCountIsTheNumberOfEntries : Prop :=
  ∀ (s : State) (tag : Byte), BufLegal s.cfg s.buf →
    (bufDrain s).1.length / entryWidth s.cfg = s.buf.length ∧
    flush tag s = { s with buf := [], outputs := s.outputs ++ [.tx (flushFrame tag s.buf.length s.buf.flatten)] } ∧
    beNat ((flushFrame tag s.buf.length s.buf.flatten).drop 1 |>.take 2) = s.buf.length

/-- Readings that arrive in OnDemand and are then asked for with GetData come out as one frame, the last `min(k, C)` of
them, in arrival order, oldest first (20_memory.md R62, 41_routing.md R144, R146, 43_reading_buffer.md R192). -/
def Obligations.OnDemandReadingsComeOutInArrivalOrder : Prop :=
  ∀ (s : State) (readings : List (ReadingId × ReadingValue × Nat)),
    s.mode = .onDemand → s.buf = [] →
    s.inputs = readings.map (fun r => .reading r.1 r.2.1 r.2.2) ++ [.rxChunk [0x04]] →
    runSteps (readings.length + 1) s = .next
      { s with
        inputs := []
        outputs := s.outputs ++ [.tx (flushFrame 0x04 (min readings.length s.cfg.capacity)
          ((readings.map fun r => pack s.cfg r.2.2 r.1 r.2.1).drop (readings.length - s.cfg.capacity)).flatten)] }

/-- Entries are created only by a reading that arrives in Batch or OnDemand (43_reading_buffer.md R195): an entry that a
step leaves in the buffer was there before, or is the packed reading that this step took. -/
def Obligations.EntriesComeOnlyFromBufferedReadings : Prop :=
  ∀ (s t : State) (e : Entry), step s = .next t → e ∈ t.buf → e ∉ s.buf →
    (s.mode = .batch ∨ s.mode = .onDemand) ∧
    ∃ (id : ReadingId) (value : ReadingValue) (ts : Nat) (rest : List InputEvent),
      s.inputs = .reading id value ts :: rest ∧ e = pack s.cfg ts id value

/-! ### Invariants and whole-machine rules -/

/-- The state after reset is legal, whatever the configuration (10_state.md R32). -/
def Obligations.ResetStateIsLegal : Prop :=
  Legal State.reset ∧ ∀ c : Cfg, Legal (State.resetWith c)

/-- Every step keeps the invariants of 10_state.md R32, from every legal state and on every input event: at most `C`
entries, each of `W` bytes with zero padding, and no period or interval below 1. -/
def Obligations.EveryStepKeepsTheStateLegal : Prop :=
  ∀ s t : State, Legal s → step s = .next t → Legal t

/-- Every state a run can reach from reset, on every schedule of input events and with every configuration, is legal
(10_state.md R32, 43_reading_buffer.md R193). -/
def Obligations.EveryReachableStateIsLegal : Prop :=
  ∀ (c : Cfg) (events : List InputEvent) (k : Nat), ∃ t : State,
    runSteps k { State.resetWith c with inputs := events } = .next t ∧
    t.buf.length ≤ c.capacity ∧
    (∀ e ∈ t.buf, e.length = (c.tsBits + 19) / 8 ∧ beNat e < 2 ^ (c.tsBits + 12)) ∧
    1 ≤ t.period.s1.toNat ∧ 1 ≤ t.period.s2.toNat ∧ 1 ≤ t.period.s3.toNat ∧ 1 ≤ t.batchInterval.toNat

/-- The configuration is fixed for the block's life (00_scope.md R8): no step changes it, the Reset event included. -/
def Obligations.ConfigurationNeverChanges : Prop :=
  ∀ s t : State, step s = .next t → t.cfg = s.cfg

/-- The writers of each field, among the commands (10_state.md R31): `mode` by STOP and START1 to START3, `started` by
STOP, `period[n]` by CFGSn, `batchInterval` by CFGBATCH, `buf` by GETDATA; the schedule is nobody's to write. -/
def Obligations.CommandsWriteOnlyTheirFields : Prop :=
  ∀ (i : Instr) (s t : State), exec i s = .next t →
    (t.mode ≠ s.mode → ∃ d, i = .stop d ∨ i = .start1 d ∨ i = .start2 d ∨ i = .start3 d) ∧
    (t.started ≠ s.started → ∃ d, i = .stop d) ∧
    (t.period.s1 ≠ s.period.s1 → ∃ d, i = .cfgs1 d) ∧
    (t.period.s2 ≠ s.period.s2 → ∃ d, i = .cfgs2 d) ∧
    (t.period.s3 ≠ s.period.s3 → ∃ d, i = .cfgs3 d) ∧
    (t.batchInterval ≠ s.batchInterval → ∃ d, i = .cfgbatch d) ∧
    (t.buf ≠ s.buf → ∃ d, i = .getdata d) ∧
    t.cfg = s.cfg ∧ t.inputs = s.inputs

/-- The writers of each field, among the other events (10_state.md R31): a reading or a flush tick writes `buf` alone,
whatever value, id and timestamp it carries (10_state.md R33), and takes itself from the schedule. -/
def Obligations.ReadingsAndTicksWriteOnlyTheBuffer : Prop :=
  ∀ (s t : State) (e : InputEvent) (rest : List InputEvent), s.inputs = e :: rest →
    (e = .flushTick ∨ ∃ id value ts, e = .reading id value ts) → step s = .next t →
    t.mode = s.mode ∧ t.started = s.started ∧ t.period = s.period ∧ t.batchInterval = s.batchInterval ∧
    t.cfg = s.cfg ∧ t.inputs = rest

/-- The mode transitions (40_dispatch.md R115), of every command, over the current mode and `started`. -/
def Obligations.ModeTransitionTable : Prop :=
  ∀ (i : Instr) (s t : State), exec i s = .next t →
    t.mode = (match i with
      | .stop _ => if s.started then .noMode else s.mode
      | .start1 _ => .direct
      | .start2 _ => .batch
      | .start3 _ => .onDemand
      | _ => s.mode) ∧
    t.started = (match i with
      | .stop _ => true
      | _ => s.started)

/-- Re-entry of the active mode (40_dispatch.md R112, the spec's decision D24): the mode stays, the outputs are those of a
first entry, the acknowledgement carries the success code, and nothing else changes. -/
def Obligations.ReentryOfTheActiveModeSucceeds : Prop :=
  ∀ (d : Option Byte) (s : State),
    (s.mode = .direct → exec (.start1 d) s = .next { s with outputs := s.outputs ++
      [.sensorRestart .s1, .sensorRestart .s2, .sensorRestart .s3, .tx [0x01, s.cfg.successCode]] }) ∧
    (s.mode = .batch → exec (.start2 d) s = .next { s with outputs := s.outputs ++
      [.sensorRestart .s1, .sensorRestart .s2, .sensorRestart .s3, .flushTimerArm s.batchInterval,
        .tx [0x02, s.cfg.successCode]] }) ∧
    (s.mode = .onDemand → exec (.start3 d) s = .next { s with outputs := s.outputs ++
      [.sensorRestart .s1, .sensorRestart .s2, .sensorRestart .s3, .tx [0x03, s.cfg.successCode]] }) ∧
    (s.mode = .noMode → s.started = true →
      exec (.stop d) s = .next { s with outputs := s.outputs ++ [.tx [0x00, s.cfg.successCode]] })

/-- Each recognized command sends exactly one frame, after its control outputs (40_dispatch.md R114, 00_scope.md R14);
an unrecognized one emits nothing. -/
def Obligations.EveryRecognizedCommandSendsOneFrame : Prop :=
  ∀ (i : Instr) (s t : State), i.wellFormed = true → exec i s = .next t →
    (i.opcode.toNat ≤ 0x08 → ∃ (control : List OutputEvent) (frame : List Byte),
      t.outputs = s.outputs ++ control ++ [.tx frame] ∧ txFrames control = []) ∧
    (0x09 ≤ i.opcode.toNat → t.outputs = s.outputs)

/-- No failure frame is ever sent (40_dispatch.md R113, the spec's decision D24): on no input event, in no state, does a
frame that a step sends consist of a byte and the error code. -/
def Obligations.NoFailureFrameIsEverSent : Prop :=
  ∀ s t : State, step s = .next t → ∀ frame ∈ txFrames (newOutputs s t), ∀ op : Byte, frame ≠ [op, s.cfg.errorCode]

/-- Every frame a step sends from a legal state has the first byte and the length of one row of 30_encoding.md R82: 0x00
with 5 bytes or 2, an acknowledgement of 2 bytes, a flush of `3 + W * n` bytes for the `n` entries that stood in the
buffer, a direct reading of `1 + W`; so the first byte 0x00 alone tells no length (30_encoding.md R83). -/
def Obligations.FramesHaveTheirTagAndLength : Prop :=
  ∀ s t : State, Legal s → step s = .next t → ∀ frame ∈ txFrames (newOutputs s t),
    (frame.head? = some 0x00 ∧ (frame.length = 5 ∧ s.started = false ∨ frame.length = 2 ∧ s.started = true)) ∨
    ((frame.head? = some 0x01 ∨ frame.head? = some 0x02 ∨ frame.head? = some 0x03 ∨ frame.head? = some 0x05 ∨
        frame.head? = some 0x06 ∨ frame.head? = some 0x07 ∨ frame.head? = some 0x08) ∧ frame.length = 2) ∨
    ((frame.head? = some 0x04 ∨ frame.head? = some 0x0A) ∧
      frame.length = 3 + (s.cfg.tsBits + 19) / 8 * s.buf.length) ∨
    (frame.head? = some 0x09 ∧ frame.length = 1 + (s.cfg.tsBits + 19) / 8)

/-- A register written by a command is seen by the very next event (70_reset_and_hazards.md R243): a ConfigureSensorN,
for each N, and then the first StopMode report the new frequency, and a ConfigureBatchRate the new rate. The minimum 1 is
the spec's decision D9. -/
def Obligations.ConfigureIsSeenByTheNextStop : Prop :=
  ∀ (s : State) (d : Byte) (rest : List InputEvent), s.started = false →
    (∀ n : Sensor, s.inputs = .rxChunk [0x04 + BitVec.ofNat 8 (sensorNumber n), d] :: .rxChunk [0x00] :: rest →
      ∃ t : State, runSteps 2 s = .next t ∧
        (∀ m : Sensor, getPeriod t.period m =
          if m = n then BitVec.ofNat 16 (max d.toNat 1) else getPeriod s.period m) ∧
        (txFrames (newOutputs s t)).getLast? = some [0x00, freqOf (getPeriod t.period .s1),
          freqOf (getPeriod t.period .s2), freqOf (getPeriod t.period .s3), rateOf s.batchInterval]) ∧
    (s.inputs = .rxChunk [0x08, d] :: .rxChunk [0x00] :: rest → ∃ t : State, runSteps 2 s = .next t ∧
      (txFrames (newOutputs s t)).getLast? = some [0x00, freqOf s.period.s1, freqOf s.period.s2, freqOf s.period.s3,
        rateOf (BitVec.ofNat 16 (max d.toNat 1))])

/-- The 2-bit code of the mode (10_state.md R22): NoMode 0, Direct 1, Batch 2, OnDemand 3, every code a mode's. The
encoding is the spec's decision D6. -/
def Obligations.ModeCodesAreABijection : Prop :=
  modeCode .noMode = 0 ∧ modeCode .direct = 1 ∧ modeCode .batch = 2 ∧ modeCode .onDemand = 3 ∧
  (∀ m : Mode, modeOfCode (modeCode m) = m) ∧ ∀ code : BitVec 2, modeCode (modeOfCode code) = code

/-! ### The block and the agents its outputs drive -/

/-- The block's copy of the periods and the interval stays what the sensor channels and the flush timer run with: if they
agree before a step that is no Reset, and the environment receives the step's outputs, they agree after it; so the block
need never ask a channel for its frequency (60_exceptions.md R216, R220; the spec's decision D1). The environment's side
is the companion of log 15. -/
def Obligations.OutputsKeepTheEnvironmentInLockstep : Prop :=
  ∀ (env : Environment) (s t : State), Lockstep env s → step s = .next t → s.inputs.head? ≠ some .reset →
    Lockstep (receiveOutputs env (newOutputs s t)) t ∧
    ∀ n : Sensor, channelFrequency (getChannel (receiveOutputs env (newOutputs s t)) n) = freqOf (getPeriod t.period n)

/-- A sensor channel's tick (60_exceptions.md R217) moves the value by at most 30 and presents it to the block with the
channel's own id 1, 2 or 3; the accumulator advances by the period, and the timestamp is the accumulator before or after
the advance. The draw's end points are 93_implementation_defined.md I5; the companion is log 15. -/
def Obligations.SensorTickIsABoundedWalk : Prop :=
  ∀ (n : Sensor) (k : Fin 60) (ch : SensorChannel), ∃ (value : ReadingValue) (ts : Nat),
    sensorTick n k ch =
      ({ value := value, accumulatedTime := ch.accumulatedTime + ch.period.toNat, period := ch.period },
        .reading (sensorId n) value ts) ∧
    (value.toNat : Int) = max 0 (min ((ch.value.toNat : Int) + ((k.val : Int) - 30)) 1023) ∧
    (ts = ch.accumulatedTime ∨ ts = ch.accumulatedTime + ch.period.toNat) ∧
    value.toNat ≤ ch.value.toNat + 29 ∧ ch.value.toNat ≤ value.toNat + 30 ∧ sensorId n ≠ 0
end

