-- ==== Sys2Proof/Laws/Decode.lean ====
section
/-! SUPPORT. What the parser and the decoder do (30_encoding.md R71, R73). -/

namespace Sys2Proof

@[simp] theorem decode_nil : decode [] = .error .emptyChunk := rfl

@[simp] theorem decode_cons (op : Byte) (rest : List Byte) :
    decode (op :: rest) = .ok (selectCommand op (chunkData (op :: rest))) := rfl

@[simp] theorem chunkData_toList (op : Byte) (d : Option Byte) : chunkData (op :: d.toList) = d := by
  cases d <;> rfl

/-- The row an opcode selects is one whose fixed bits it has, the last row included. -/
theorem rowOf_matches : ∀ op : Byte, inRow (rowMask (rowOf op)) (rowMatch (rowOf op)) op = true := by
  decide

/-- No opcode has the fixed bits of two rows: the row it selects is the only one. -/
theorem rowOf_unique (r : OpcodeRow) : ∀ op : Byte, inRow (rowMask r) (rowMatch r) op = true → rowOf op = r := by
  cases r <;> decide

/-- The command an opcode selects keeps the data byte. -/
@[simp] theorem selectCommand_data (op : Byte) (d : Option Byte) : (selectCommand op d).data = d := by
  unfold selectCommand
  cases rowOf op <;> rfl

/-- The opcode of the command an opcode selects, as a function of the opcode alone. -/
theorem commandOfRow_opcode : ∀ op : Byte, (commandOfRow (rowOf op) op none).opcode = op := by
  decide

/-- The command an opcode selects is of that opcode. -/
@[simp] theorem selectCommand_opcode (op : Byte) (d : Option Byte) : (selectCommand op d).opcode = op := by
  refine Eq.trans ?_ (commandOfRow_opcode op)
  unfold selectCommand
  cases rowOf op <;> rfl

end Sys2Proof
end

