-- ==== Sys2Proof/Laws/Frame.lean ====
section
/-! SUPPORT. What the byte-level functions of the frame encoder do (00_scope.md R12, 42_frame_encoder.md). -/

namespace Sys2Proof.Machine

@[simp] theorem beBytes_length (n v : Nat) : (beBytes n v).length = n := by
  induction n with
  | zero => rfl
  | succ n ih => simp [beBytes, ih]

theorem foldl_bytes (bytes : List Byte) (acc : Nat) :
    bytes.foldl (fun acc b => acc * 256 + b.toNat) acc = acc * 2 ^ (8 * bytes.length) + beNat bytes := by
  induction bytes generalizing acc with
  | nil => simp [beNat]
  | cons b bytes ih =>
    simp only [beNat, List.foldl_cons, List.length_cons] at *
    rw [ih, ih (0 * 256 + b.toNat)]
    have h : 2 ^ (8 * (bytes.length + 1)) = 256 * 2 ^ (8 * bytes.length) := by
      rw [Nat.mul_add, Nat.pow_add]; omega
    rw [h]; ring

/-- The number of a byte sequence, its first byte split off: what 42_frame_encoder.md R169 writes as a sum. -/
theorem beNat_split_head (b : Byte) (bytes : List Byte) :
    beNat (b :: bytes) = b.toNat * 2 ^ (8 * bytes.length) + beNat bytes := by
  have h := foldl_bytes bytes b.toNat
  simpa [beNat] using h

/-- Serializing a number in `n` bytes keeps it modulo `2^(8n)`. -/
theorem beNat_of_beBytes (n v : Nat) : beNat (beBytes n v) = v % 2 ^ (8 * n) := by
  induction n with
  | zero => simp [beBytes, beNat, Nat.mod_one]
  | succ n ih =>
    rw [beBytes, beNat_split_head, ih, beBytes_length, BitVec.toNat_ofNat]
    have h : 2 ^ (8 * (n + 1)) = 2 ^ (8 * n) * 2 ^ 8 := by rw [Nat.mul_add, Nat.pow_add]
    rw [h, Nat.mod_mul]
    ring

/-- The bytes of a serialization, the last one split off. -/
theorem beBytes_split_last (n v : Nat) : beBytes (n + 1) v = beBytes n (v / 256) ++ [BitVec.ofNat 8 v] := by
  induction n with
  | zero => simp [beBytes]
  | succ n ih =>
    rw [beBytes, ih, beBytes, List.cons_append]
    congr 2
    rw [Nat.div_div_eq_div_mul, Nat.mul_succ, Nat.pow_add, Nat.mul_comm]

theorem entryWidth_ge_two (c : Cfg) : 2 ≤ entryWidth c := by
  unfold entryWidth; omega

/-- The entry width holds every bit of a packed reading (00_scope.md R7). -/
theorem entryWidth_holds (c : Cfg) : c.tsBits + 12 ≤ 8 * entryWidth c := by
  unfold entryWidth; omega

theorem packedNat_lt (c : Cfg) (ts : Nat) (id : ReadingId) (value : ReadingValue) :
    packedNat c ts id value < 2 ^ (c.tsBits + 12) := by
  have h1 := Nat.mod_lt ts (Nat.two_pow_pos c.tsBits)
  have h2 := id.isLt
  have h3 := value.isLt
  rw [Nat.pow_add]
  unfold packedNat
  omega

@[simp] theorem pack_length (c : Cfg) (ts : Nat) (id : ReadingId) (value : ReadingValue) :
    (pack c ts id value).length = entryWidth c := beBytes_length _ _

/-- The drained bytes of entries of one width. -/
theorem flatten_length_of_width (w : Nat) (es : List Entry) (h : ∀ e ∈ es, e.length = w) :
    es.flatten.length = w * es.length := by
  induction es with
  | nil => simp
  | cons e es ih =>
    simp only [List.flatten_cons, List.length_append, List.length_cons]
    rw [ih fun x hx => h x (List.mem_cons_of_mem _ hx), h e (List.mem_cons_self ..)]
    ring

end Sys2Proof.Machine
end

