-- ==== Sys2Proof/Laws/State.lean ====
section
/-! SUPPORT. One lemma per field per update of State (true by rfl), so that no proof unfolds a record update. -/

namespace Sys2Proof.Machine

@[simp] theorem setMode_mode (m : Mode) (s : State) : (setMode m s).mode = m := rfl
@[simp] theorem setMode_started (m : Mode) (s : State) : (setMode m s).started = s.started := rfl
@[simp] theorem setMode_period (m : Mode) (s : State) : (setMode m s).period = s.period := rfl
@[simp] theorem setMode_batchInterval (m : Mode) (s : State) : (setMode m s).batchInterval = s.batchInterval := rfl
@[simp] theorem setMode_buf (m : Mode) (s : State) : (setMode m s).buf = s.buf := rfl
@[simp] theorem setMode_cfg (m : Mode) (s : State) : (setMode m s).cfg = s.cfg := rfl
@[simp] theorem setMode_inputs (m : Mode) (s : State) : (setMode m s).inputs = s.inputs := rfl
@[simp] theorem setMode_outputs (m : Mode) (s : State) : (setMode m s).outputs = s.outputs := rfl

@[simp] theorem setStarted_mode (s : State) : (setStarted s).mode = s.mode := rfl
@[simp] theorem setStarted_started (s : State) : (setStarted s).started = true := rfl
@[simp] theorem setStarted_period (s : State) : (setStarted s).period = s.period := rfl
@[simp] theorem setStarted_batchInterval (s : State) : (setStarted s).batchInterval = s.batchInterval := rfl
@[simp] theorem setStarted_buf (s : State) : (setStarted s).buf = s.buf := rfl
@[simp] theorem setStarted_cfg (s : State) : (setStarted s).cfg = s.cfg := rfl
@[simp] theorem setStarted_inputs (s : State) : (setStarted s).inputs = s.inputs := rfl
@[simp] theorem setStarted_outputs (s : State) : (setStarted s).outputs = s.outputs := rfl

@[simp] theorem emit_mode (os : List OutputEvent) (s : State) : (emit os s).mode = s.mode := rfl
@[simp] theorem emit_started (os : List OutputEvent) (s : State) : (emit os s).started = s.started := rfl
@[simp] theorem emit_period (os : List OutputEvent) (s : State) : (emit os s).period = s.period := rfl
@[simp] theorem emit_batchInterval (os : List OutputEvent) (s : State) : (emit os s).batchInterval = s.batchInterval := rfl
@[simp] theorem emit_buf (os : List OutputEvent) (s : State) : (emit os s).buf = s.buf := rfl
@[simp] theorem emit_cfg (os : List OutputEvent) (s : State) : (emit os s).cfg = s.cfg := rfl
@[simp] theorem emit_inputs (os : List OutputEvent) (s : State) : (emit os s).inputs = s.inputs := rfl
@[simp] theorem emit_outputs (os : List OutputEvent) (s : State) : (emit os s).outputs = s.outputs ++ os := rfl

@[simp] theorem bufAppend_mode (e : Entry) (s : State) : (bufAppend e s).mode = s.mode := rfl
@[simp] theorem bufAppend_started (e : Entry) (s : State) : (bufAppend e s).started = s.started := rfl
@[simp] theorem bufAppend_period (e : Entry) (s : State) : (bufAppend e s).period = s.period := rfl
@[simp] theorem bufAppend_batchInterval (e : Entry) (s : State) : (bufAppend e s).batchInterval = s.batchInterval := rfl
@[simp] theorem bufAppend_buf (e : Entry) (s : State) : (bufAppend e s).buf = (if s.cfg.capacity ≤ s.buf.length then s.buf.tail else s.buf) ++ [e] := rfl
@[simp] theorem bufAppend_cfg (e : Entry) (s : State) : (bufAppend e s).cfg = s.cfg := rfl
@[simp] theorem bufAppend_inputs (e : Entry) (s : State) : (bufAppend e s).inputs = s.inputs := rfl
@[simp] theorem bufAppend_outputs (e : Entry) (s : State) : (bufAppend e s).outputs = s.outputs := rfl

@[simp] theorem setPeriod_mode (n : Sensor) (p : Word16) (s : State) : (setPeriod n p s).mode = s.mode := rfl
@[simp] theorem setPeriod_started (n : Sensor) (p : Word16) (s : State) : (setPeriod n p s).started = s.started := rfl
@[simp] theorem setPeriod_period (n : Sensor) (p : Word16) (s : State) : (setPeriod n p s).period = putPeriod s.period n p := rfl
@[simp] theorem setPeriod_batchInterval (n : Sensor) (p : Word16) (s : State) : (setPeriod n p s).batchInterval = s.batchInterval := rfl
@[simp] theorem setPeriod_buf (n : Sensor) (p : Word16) (s : State) : (setPeriod n p s).buf = s.buf := rfl
@[simp] theorem setPeriod_cfg (n : Sensor) (p : Word16) (s : State) : (setPeriod n p s).cfg = s.cfg := rfl
@[simp] theorem setPeriod_inputs (n : Sensor) (p : Word16) (s : State) : (setPeriod n p s).inputs = s.inputs := rfl
@[simp] theorem setPeriod_outputs (n : Sensor) (p : Word16) (s : State) : (setPeriod n p s).outputs = s.outputs := rfl

@[simp] theorem setBatchInterval_mode (i : Word16) (s : State) : (setBatchInterval i s).mode = s.mode := rfl
@[simp] theorem setBatchInterval_started (i : Word16) (s : State) : (setBatchInterval i s).started = s.started := rfl
@[simp] theorem setBatchInterval_period (i : Word16) (s : State) : (setBatchInterval i s).period = s.period := rfl
@[simp] theorem setBatchInterval_batchInterval (i : Word16) (s : State) : (setBatchInterval i s).batchInterval = i := rfl
@[simp] theorem setBatchInterval_buf (i : Word16) (s : State) : (setBatchInterval i s).buf = s.buf := rfl
@[simp] theorem setBatchInterval_cfg (i : Word16) (s : State) : (setBatchInterval i s).cfg = s.cfg := rfl
@[simp] theorem setBatchInterval_inputs (i : Word16) (s : State) : (setBatchInterval i s).inputs = s.inputs := rfl
@[simp] theorem setBatchInterval_outputs (i : Word16) (s : State) : (setBatchInterval i s).outputs = s.outputs := rfl

@[simp] theorem ignoreInput_mode (s : State) : (ignoreInput s).mode = s.mode := rfl
@[simp] theorem ignoreInput_started (s : State) : (ignoreInput s).started = s.started := rfl
@[simp] theorem ignoreInput_period (s : State) : (ignoreInput s).period = s.period := rfl
@[simp] theorem ignoreInput_batchInterval (s : State) : (ignoreInput s).batchInterval = s.batchInterval := rfl
@[simp] theorem ignoreInput_buf (s : State) : (ignoreInput s).buf = s.buf := rfl
@[simp] theorem ignoreInput_cfg (s : State) : (ignoreInput s).cfg = s.cfg := rfl
@[simp] theorem ignoreInput_inputs (s : State) : (ignoreInput s).inputs = s.inputs := rfl
@[simp] theorem ignoreInput_outputs (s : State) : (ignoreInput s).outputs = s.outputs := rfl

@[simp] theorem resetBlock_mode (s : State) : (resetBlock s).mode = .noMode := rfl
@[simp] theorem resetBlock_started (s : State) : (resetBlock s).started = false := rfl
@[simp] theorem resetBlock_period (s : State) : (resetBlock s).period = s.cfg.periodReset := rfl
@[simp] theorem resetBlock_batchInterval (s : State) : (resetBlock s).batchInterval = s.cfg.batchReset := rfl
@[simp] theorem resetBlock_buf (s : State) : (resetBlock s).buf = [] := rfl
@[simp] theorem resetBlock_cfg (s : State) : (resetBlock s).cfg = s.cfg := rfl
@[simp] theorem resetBlock_inputs (s : State) : (resetBlock s).inputs = s.inputs := rfl
@[simp] theorem resetBlock_outputs (s : State) : (resetBlock s).outputs = s.outputs := rfl

@[simp] theorem takeInput_mode (rest : List InputEvent) (s : State) : (takeInput rest s).mode = s.mode := rfl
@[simp] theorem takeInput_started (rest : List InputEvent) (s : State) : (takeInput rest s).started = s.started := rfl
@[simp] theorem takeInput_period (rest : List InputEvent) (s : State) : (takeInput rest s).period = s.period := rfl
@[simp] theorem takeInput_batchInterval (rest : List InputEvent) (s : State) : (takeInput rest s).batchInterval = s.batchInterval := rfl
@[simp] theorem takeInput_buf (rest : List InputEvent) (s : State) : (takeInput rest s).buf = s.buf := rfl
@[simp] theorem takeInput_cfg (rest : List InputEvent) (s : State) : (takeInput rest s).cfg = s.cfg := rfl
@[simp] theorem takeInput_inputs (rest : List InputEvent) (s : State) : (takeInput rest s).inputs = rest := rfl
@[simp] theorem takeInput_outputs (rest : List InputEvent) (s : State) : (takeInput rest s).outputs = s.outputs := rfl

@[simp] theorem presentInput_mode (e : InputEvent) (s : State) : (presentInput e s).mode = s.mode := rfl
@[simp] theorem presentInput_started (e : InputEvent) (s : State) : (presentInput e s).started = s.started := rfl
@[simp] theorem presentInput_period (e : InputEvent) (s : State) : (presentInput e s).period = s.period := rfl
@[simp] theorem presentInput_batchInterval (e : InputEvent) (s : State) : (presentInput e s).batchInterval = s.batchInterval := rfl
@[simp] theorem presentInput_buf (e : InputEvent) (s : State) : (presentInput e s).buf = s.buf := rfl
@[simp] theorem presentInput_cfg (e : InputEvent) (s : State) : (presentInput e s).cfg = s.cfg := rfl
@[simp] theorem presentInput_inputs (e : InputEvent) (s : State) : (presentInput e s).inputs = e :: s.inputs := rfl
@[simp] theorem presentInput_outputs (e : InputEvent) (s : State) : (presentInput e s).outputs = s.outputs := rfl

@[simp] theorem bufDrain_snd_mode (s : State) : ((bufDrain s).2).mode = s.mode := rfl
@[simp] theorem bufDrain_snd_started (s : State) : ((bufDrain s).2).started = s.started := rfl
@[simp] theorem bufDrain_snd_period (s : State) : ((bufDrain s).2).period = s.period := rfl
@[simp] theorem bufDrain_snd_batchInterval (s : State) : ((bufDrain s).2).batchInterval = s.batchInterval := rfl
@[simp] theorem bufDrain_snd_buf (s : State) : ((bufDrain s).2).buf = [] := rfl
@[simp] theorem bufDrain_snd_cfg (s : State) : ((bufDrain s).2).cfg = s.cfg := rfl
@[simp] theorem bufDrain_snd_inputs (s : State) : ((bufDrain s).2).inputs = s.inputs := rfl
@[simp] theorem bufDrain_snd_outputs (s : State) : ((bufDrain s).2).outputs = s.outputs := rfl

@[simp] theorem bufDrain_fst (s : State) : (bufDrain s).1 = s.buf.flatten := rfl

@[simp] theorem State.resetWith_mode (c : Cfg) : (State.resetWith c).mode = .noMode := rfl
@[simp] theorem State.resetWith_started (c : Cfg) : (State.resetWith c).started = false := rfl
@[simp] theorem State.resetWith_period (c : Cfg) : (State.resetWith c).period = c.periodReset := rfl
@[simp] theorem State.resetWith_batchInterval (c : Cfg) : (State.resetWith c).batchInterval = c.batchReset := rfl
@[simp] theorem State.resetWith_buf (c : Cfg) : (State.resetWith c).buf = [] := rfl
@[simp] theorem State.resetWith_cfg (c : Cfg) : (State.resetWith c).cfg = c := rfl
@[simp] theorem State.resetWith_inputs (c : Cfg) : (State.resetWith c).inputs = [] := rfl
@[simp] theorem State.resetWith_outputs (c : Cfg) : (State.resetWith c).outputs = [] := rfl

end Sys2Proof.Machine
end

