-- ==== Sys2Proof/Laws/Ops.lean ====
section
/-! SUPPORT. What each shared operation does, once, and that every FIFO operation keeps the FIFO's form. -/

namespace Sys2Proof.Machine

theorem emit_nil (s : State) : emit [] s = s := by simp [emit]

/-- All that `Flush(tag)` does (41_routing.md R146). -/
theorem flush_spec (tag : Byte) (s : State) :
    flush tag s =
      { s with
        buf := []
        outputs := s.outputs ++ [.tx (flushFrame tag (s.buf.flatten.length / entryWidth s.cfg) s.buf.flatten)] } :=
  rfl

/-- All that StartModeN share (40_dispatch.md R102 to R104). -/
theorem startMode_spec (m : Mode) (op : Byte) (control : List OutputEvent) (s : State) :
    startMode m op control s =
      { s with mode := m, outputs := s.outputs ++ (restartAll ++ control ++ [.tx (ackFrame s.cfg op)]) } :=
  rfl

/-- All that `ConfigureSensor(N, data)` does (40_dispatch.md R106). -/
theorem configureSensor_spec (n : Sensor) (data : Option Byte) (s : State) :
    configureSensor n data s =
      { s with
        period := putPeriod s.period n (clampedMs data)
        outputs := s.outputs ++
          [.sensorConfigure n (clampedMs data), .tx (ackFrame s.cfg (configureOpcode n))] } :=
  rfl

@[simp] theorem getPeriod_putPeriod (p : Periods) (n m : Sensor) (v : Word16) :
    getPeriod (putPeriod p n v) m = if m = n then v else getPeriod p m := by
  cases n <;> cases m <;> rfl

/-- The clamped operand is the larger of the data byte and 1: it never leaves 16 bits (30_encoding.md R72). -/
theorem clampedMs_toNat (data : Option Byte) : (clampedMs data).toNat = max (dataByte data).toNat 1 := by
  have h := (dataByte data).isLt
  simp only [clampedMs, Config.minPeriodMs, BitVec.toNat_ofNat]
  omega

/-- An append of a packed reading keeps the FIFO's form (10_state.md R32). -/
theorem bufAppend_keeps_form (e : Entry) (s : State) (h : BufLegal s.cfg s.buf) (he : EntryLegal s.cfg e) :
    BufLegal (bufAppend e s).cfg (bufAppend e s).buf := by
  obtain ⟨hlen, hall⟩ := h
  have hpos := s.cfg.capacity_pos
  simp only [bufAppend_cfg, bufAppend_buf]
  refine ⟨?_, fun x hx => ?_⟩
  · split <;> simp only [List.length_append, List.length_tail, List.length_singleton] <;> omega
  · rcases List.mem_append.1 hx with hx | hx
    · split at hx
      · exact hall x (List.mem_of_mem_tail hx)
      · exact hall x hx
    · simpa using (List.mem_singleton.1 hx) ▸ he

/-- A drain keeps the FIFO's form. -/
theorem bufDrain_keeps_form (s : State) : BufLegal (bufDrain s).2.cfg (bufDrain s).2.buf := by
  simp [BufLegal]

end Sys2Proof.Machine
end

