-- ==== Sys2Proof/Laws/PerInstr.lean ====
section
/-! SUPPORT. The statement made per command: a command's chunk is an opcode of the row of the opcode table that its
constructor stands for, and one data byte at most (spec/opcode_table.json, 30_encoding.md R70). -/

namespace Sys2Proof.Laws

/-- The chunk of a well-formed command is the command's opcode and at most one byte, the opcode one of the command's row. -/
def EncodedRow.Statement (i : Instr) : Prop :=
  i.wellFormed = true → ∃ (r : OpcodeRow) (op : Byte) (d : Option Byte),
    i = commandOfRow r op d ∧ encode i = op :: d.toList ∧ inRow (rowMask r) (rowMatch r) op = true

theorem EncodedRow.stop (d : Option Byte) : EncodedRow.Statement (.stop d) :=
  fun _ => ⟨.stop, 0x00, d, rfl, rfl, by decide⟩

theorem EncodedRow.start1 (d : Option Byte) : EncodedRow.Statement (.start1 d) :=
  fun _ => ⟨.start1, 0x01, d, rfl, rfl, by decide⟩

theorem EncodedRow.start2 (d : Option Byte) : EncodedRow.Statement (.start2 d) :=
  fun _ => ⟨.start2, 0x02, d, rfl, rfl, by decide⟩

theorem EncodedRow.start3 (d : Option Byte) : EncodedRow.Statement (.start3 d) :=
  fun _ => ⟨.start3, 0x03, d, rfl, rfl, by decide⟩

theorem EncodedRow.getdata (d : Option Byte) : EncodedRow.Statement (.getdata d) :=
  fun _ => ⟨.getdata, 0x04, d, rfl, rfl, by decide⟩

theorem EncodedRow.cfgs1 (d : Option Byte) : EncodedRow.Statement (.cfgs1 d) :=
  fun _ => ⟨.cfgs1, 0x05, d, rfl, rfl, by decide⟩

theorem EncodedRow.cfgs2 (d : Option Byte) : EncodedRow.Statement (.cfgs2 d) :=
  fun _ => ⟨.cfgs2, 0x06, d, rfl, rfl, by decide⟩

theorem EncodedRow.cfgs3 (d : Option Byte) : EncodedRow.Statement (.cfgs3 d) :=
  fun _ => ⟨.cfgs3, 0x07, d, rfl, rfl, by decide⟩

theorem EncodedRow.cfgbatch (d : Option Byte) : EncodedRow.Statement (.cfgbatch d) :=
  fun _ => ⟨.cfgbatch, 0x08, d, rfl, rfl, by decide⟩

theorem EncodedRow.reserved09 (d : Option Byte) : EncodedRow.Statement (.reserved09 d) :=
  fun _ => ⟨.reserved09, 0x09, d, rfl, rfl, by decide⟩

theorem EncodedRow.reserved0A (d : Option Byte) : EncodedRow.Statement (.reserved0A d) :=
  fun _ => ⟨.reserved0A, 0x0A, d, rfl, rfl, by decide⟩

theorem EncodedRow.unrecognized0B (d : Option Byte) : EncodedRow.Statement (.unrecognized0B d) :=
  fun _ => ⟨.unrecognized0B, 0x0B, d, rfl, rfl, by decide⟩

theorem EncodedRow.unrecognized0C (op : Byte) (d : Option Byte) : EncodedRow.Statement (.unrecognized0C op d) :=
  fun h => ⟨.unrecognized0C, op, d, rfl, rfl, h⟩

theorem EncodedRow.unrecognized10 (op : Byte) (d : Option Byte) : EncodedRow.Statement (.unrecognized10 op d) :=
  fun h => ⟨.unrecognized10, op, d, rfl, rfl, h⟩

theorem EncodedRow.unrecognized20 (op : Byte) (d : Option Byte) : EncodedRow.Statement (.unrecognized20 op d) :=
  fun h => ⟨.unrecognized20, op, d, rfl, rfl, h⟩

theorem EncodedRow.unrecognized40 (op : Byte) (d : Option Byte) : EncodedRow.Statement (.unrecognized40 op d) :=
  fun h => ⟨.unrecognized40, op, d, rfl, rfl, h⟩

theorem EncodedRow.unrecognized80 (op : Byte) (d : Option Byte) : EncodedRow.Statement (.unrecognized80 op d) :=
  fun h => ⟨.unrecognized80, op, d, rfl, rfl, h⟩

end Sys2Proof.Laws
end

