-- ==== Sys2Proof/Laws/Step.lean ====
section
/-! SUPPORT. What a command and a step can do, once: every later proof about a step cites these. -/

namespace Sys2Proof.Machine

/-- All that a command can do: one of the ten effects, each on the state it runs in (40_dispatch.md R101 to R110). -/
theorem exec_cases (i : Instr) (s : State) :
    (∃ d, i = .stop d ∧ s.started = false ∧
      exec i s = .next (emit [.tx (frequenciesFrame s.period s.batchInterval)] (setStarted s))) ∨
    (∃ d, i = .stop d ∧ s.started = true ∧
      exec i s = .next (emit [.tx (ackFrame s.cfg 0x00)] (setMode .noMode s))) ∨
    (∃ d, i = .start1 d ∧ exec i s = .next (startMode .direct 0x01 [] s)) ∨
    (∃ d, i = .start2 d ∧ exec i s = .next (startMode .batch 0x02 [.flushTimerArm s.batchInterval] s)) ∨
    (∃ d, i = .start3 d ∧ exec i s = .next (startMode .onDemand 0x03 [] s)) ∨
    (∃ d, i = .getdata d ∧ exec i s = .next (flush Config.forcedTag s)) ∨
    (∃ d n, (n = Sensor.s1 ∧ i = .cfgs1 d ∨ n = Sensor.s2 ∧ i = .cfgs2 d ∨ n = Sensor.s3 ∧ i = .cfgs3 d) ∧
      exec i s = .next (configureSensor n d s)) ∨
    (∃ d, i = .cfgbatch d ∧ exec i s = .next
      (emit [.flushIntervalSet (clampedMs d), .tx (ackFrame s.cfg 0x08)] (setBatchInterval (clampedMs d) s))) ∨
    ((i.wellFormed = true → 0x09 ≤ i.opcode.toNat) ∧ exec i s = .next s) := by
  cases i with
  | stop d => cases h : s.started <;> simp [exec, execStop, h]
  | start1 d => exact .inr (.inr (.inl ⟨d, rfl, rfl⟩))
  | start2 d => exact .inr (.inr (.inr (.inl ⟨d, rfl, rfl⟩)))
  | start3 d => exact .inr (.inr (.inr (.inr (.inl ⟨d, rfl, rfl⟩))))
  | getdata d => exact .inr (.inr (.inr (.inr (.inr (.inl ⟨d, rfl, rfl⟩)))))
  | cfgs1 d => exact .inr (.inr (.inr (.inr (.inr (.inr (.inl ⟨d, .s1, .inl ⟨rfl, rfl⟩, rfl⟩))))))
  | cfgs2 d => exact .inr (.inr (.inr (.inr (.inr (.inr (.inl ⟨d, .s2, .inr (.inl ⟨rfl, rfl⟩), rfl⟩))))))
  | cfgs3 d => exact .inr (.inr (.inr (.inr (.inr (.inr (.inl ⟨d, .s3, .inr (.inr ⟨rfl, rfl⟩), rfl⟩))))))
  | cfgbatch d => exact .inr (.inr (.inr (.inr (.inr (.inr (.inr (.inl ⟨d, rfl, rfl⟩)))))))
  | reserved09 d => exact .inr (.inr (.inr (.inr (.inr (.inr (.inr (.inr ⟨fun _ => by simp [Instr.opcode], rfl⟩)))))))
  | reserved0A d => exact .inr (.inr (.inr (.inr (.inr (.inr (.inr (.inr ⟨fun _ => by simp [Instr.opcode], rfl⟩)))))))
  | unrecognized0B d => exact .inr (.inr (.inr (.inr (.inr (.inr (.inr (.inr ⟨fun _ => by simp [Instr.opcode], rfl⟩)))))))
  | unrecognized0C op d =>
    refine .inr (.inr (.inr (.inr (.inr (.inr (.inr (.inr ⟨?_, rfl⟩)))))))
    simp only [Instr.wellFormed, Instr.opcode]
    revert op; decide
  | unrecognized10 op d =>
    refine .inr (.inr (.inr (.inr (.inr (.inr (.inr (.inr ⟨?_, rfl⟩)))))))
    simp only [Instr.wellFormed, Instr.opcode]
    revert op; decide
  | unrecognized20 op d =>
    refine .inr (.inr (.inr (.inr (.inr (.inr (.inr (.inr ⟨?_, rfl⟩)))))))
    simp only [Instr.wellFormed, Instr.opcode]
    revert op; decide
  | unrecognized40 op d =>
    refine .inr (.inr (.inr (.inr (.inr (.inr (.inr (.inr ⟨?_, rfl⟩)))))))
    simp only [Instr.wellFormed, Instr.opcode]
    revert op; decide
  | unrecognized80 op d =>
    refine .inr (.inr (.inr (.inr (.inr (.inr (.inr (.inr ⟨?_, rfl⟩)))))))
    simp only [Instr.wellFormed, Instr.opcode]
    revert op; decide

/-- All that a step can do: wait when no event is presented, or take the first event and, with `u` the state without it,
run a command, ignore it, send or buffer a reading, flush, or reset (60_exceptions.md R212). -/
theorem step_cases (s : State) :
    (s.inputs = [] ∧ step s = .next s) ∨
    ∃ (e : InputEvent) (rest : List InputEvent), s.inputs = e :: rest ∧
      ((∃ op tail, e = .rxChunk (op :: tail) ∧
          step s = exec (selectCommand op (chunkData (op :: tail))) (takeInput rest s)) ∨
       (e = .rxChunk [] ∧ step s = .next (takeInput rest s)) ∨
       (∃ id value ts, e = .reading id value ts ∧
          (s.mode = .noMode ∧ step s = .next (takeInput rest s) ∨
           s.mode = .direct ∧
             step s = .next (emit [.tx (directFrame s.cfg ts id value)] (takeInput rest s)) ∨
           (s.mode = .batch ∨ s.mode = .onDemand) ∧
             step s = .next (bufAppend (pack s.cfg ts id value) (takeInput rest s)))) ∨
       (e = .flushTick ∧ s.mode = .batch ∧ step s = .next (flush Config.periodicTag (takeInput rest s))) ∨
       (e = .flushTick ∧ s.mode ≠ .batch ∧ step s = .next (takeInput rest s)) ∨
       (e = .reset ∧ step s = .next (resetBlock (takeInput rest s)))) := by
  rcases hi : s.inputs with _ | ⟨e, rest⟩
  · exact .inl ⟨rfl, by simp [step, hi, onIdle]⟩
  · refine .inr ⟨e, rest, rfl, ?_⟩
    cases e with
    | rxChunk bytes =>
      cases bytes with
      | nil => exact .inr (.inl ⟨rfl, by simp [step, hi, onEvent, onRxChunk, onEmptyChunk, ignoreInput]⟩)
      | cons op tail => exact .inl ⟨op, tail, rfl, by simp [step, hi, onEvent, onRxChunk]⟩
    | reading id value ts =>
      refine .inr (.inr (.inl ⟨id, value, ts, rfl, ?_⟩))
      cases hm : s.mode <;> simp [step, hi, onEvent, onReading, hm, ignoreInput]
    | flushTick =>
      cases hm : s.mode <;> simp [step, hi, onEvent, onFlushTick, hm, ignoreInput]
    | reset => simp [step, hi, onEvent, onReset]

end Sys2Proof.Machine
end

