-- ==== Sys2Proof/Tests/Slice0.lean ====
section
/-! SUPPORT. The model's own tests. Expected values are those of spec/95_test_vectors.md, named beside each test, or worked
out by hand from the rule named. The second part shows, for each statement with hypotheses, values that meet them. -/

namespace Sys2Proof.Tests

open Sys2Proof.Machine

/-- The reset state of VC-A (00_scope.md R9) with S = 0xA5 and E = 0x5A. -/
def vcA : State := State.resetWith (Config.vcA 0xA5 0x5A)

/-- VC-A in a given mode with given entries and a given schedule. -/
def vcAWith (m : Mode) (buf : List Entry) (inputs : List InputEvent) : State :=
  { vcA with mode := m, buf := buf, inputs := inputs }

/-- The state of an outcome; the reset state of VC-A where there is none. -/
def stateOf : Result → State
  | .next t => t
  | .fault _ => vcA
  | .refused _ => vcA

/-- What one input event makes of a state. -/
def after (e : InputEvent) (s : State) : State := stateOf (step { s with inputs := [e] })

/-! ### Well-formedness: an ill-formed term for each check -/

theorem test_wellFormed_refuses_0B_in_row_0C : (Instr.unrecognized0C 0x0B none).wellFormed = false := by decide
theorem test_wellFormed_refuses_20_in_row_10 : (Instr.unrecognized10 0x20 none).wellFormed = false := by decide
theorem test_wellFormed_refuses_1F_in_row_20 : (Instr.unrecognized20 0x1F none).wellFormed = false := by decide
theorem test_wellFormed_refuses_80_in_row_40 : (Instr.unrecognized40 0x80 none).wellFormed = false := by decide
theorem test_wellFormed_refuses_7F_in_row_80 : (Instr.unrecognized80 0x7F none).wellFormed = false := by decide
theorem test_wellFormed_accepts_the_rows :
    (Instr.stop (some 0x77)).wellFormed = true ∧ (Instr.unrecognized0C 0x0F none).wellFormed = true := by decide

/-! ### Decoding: words written out bit by bit from 30_encoding.md R73, R74, R75 and R84, one for each constructor -/

theorem test_decode_stop : decode [0b00000000#8] = .ok (.stop none) := by decide
theorem test_decode_start1 : decode [0b00000001#8, 0b01110111#8] = .ok (.start1 (some 0x77)) := by decide
theorem test_decode_start2 : decode [0b00000010#8] = .ok (.start2 none) := by decide
theorem test_decode_start3 : decode [0b00000011#8] = .ok (.start3 none) := by decide
theorem test_decode_getdata : decode [0b00000100#8, 0b11111111#8] = .ok (.getdata (some 255)) := by decide
theorem test_decode_cfgs1 : decode [0b00000101#8, 0b00110010#8] = .ok (.cfgs1 (some 50)) := by decide
theorem test_decode_cfgs2 : decode [0b00000110#8, 0b01010000#8] = .ok (.cfgs2 (some 80)) := by decide
theorem test_decode_cfgs3 : decode [0b00000111#8] = .ok (.cfgs3 none) := by decide
theorem test_decode_cfgbatch : decode [0b00001000#8, 0b11001000#8] = .ok (.cfgbatch (some 200)) := by decide
theorem test_decode_reserved09 : decode [0b00001001#8, 0b00000001#8] = .ok (.reserved09 (some 1)) := by decide
theorem test_decode_reserved0A : decode [0b00001010#8] = .ok (.reserved0A none) := by decide
theorem test_decode_unrecognized0B : decode [0b00001011#8] = .ok (.unrecognized0B none) := by decide
theorem test_decode_unrecognized0C :
    decode [0b00001100#8] = .ok (.unrecognized0C 0x0C none) ∧
    decode [0b00001111#8] = .ok (.unrecognized0C 0x0F none) := by decide
theorem test_decode_unrecognized10 :
    decode [0b00010000#8] = .ok (.unrecognized10 0x10 none) ∧
    decode [0b00011111#8] = .ok (.unrecognized10 0x1F none) := by decide
theorem test_decode_unrecognized20 :
    decode [0b00100000#8] = .ok (.unrecognized20 0x20 none) ∧
    decode [0b00111111#8] = .ok (.unrecognized20 0x3F none) := by decide
theorem test_decode_unrecognized40 :
    decode [0b01000000#8] = .ok (.unrecognized40 0x40 none) ∧
    decode [0b01111111#8] = .ok (.unrecognized40 0x7F none) := by decide
theorem test_decode_unrecognized80 :
    decode [0b10000000#8] = .ok (.unrecognized80 0x80 none) ∧
    decode [0b11111111#8, 0b00000101#8] = .ok (.unrecognized80 0xFF (some 5)) := by decide
theorem test_decode_ignores_the_tail : decode [0x05, 0x10, 0x20] = .ok (.cfgs1 (some 0x10)) := by decide
theorem test_decode_table_word : decodeTableWord 8 0x05 = some (.cfgs1 (some 0)) := by decide
theorem test_encode_with_and_without_data :
    encode (.cfgs1 (some 50)) = [0x05, 0x32] ∧ encode (.unrecognized20 0x21 none) = [0x21] := by decide

/-! ### Commands, one step each (95_test_vectors.md L2.1) -/

/-- DV01. -/
theorem test_stop_first :
    (after (.rxChunk [0x00]) vcA).outputs = [.tx [0x00, 0x01, 0x01, 0x01, 0x01]] ∧
    (after (.rxChunk [0x00]) vcA).started = true := by decide
/-- DV03: the first StopMode leaves the mode. -/
theorem test_stop_first_keeps_mode : (after (.rxChunk [0x00]) (vcAWith .direct [] [])).mode = .direct := by decide
/-- DV04, DV08. -/
theorem test_start1 :
    (after (.rxChunk [0x01, 0x77]) vcA).outputs =
      [.sensorRestart .s1, .sensorRestart .s2, .sensorRestart .s3, .tx [0x01, 0xA5]] ∧
    (after (.rxChunk [0x01, 0x77]) vcA).mode = .direct := by decide
/-- DV06. -/
theorem test_start2_reentry :
    (after (.rxChunk [0x02]) (vcAWith .batch [[0x04, 0x01]] [])).outputs =
      [.sensorRestart .s1, .sensorRestart .s2, .sensorRestart .s3, .flushTimerArm 1000, .tx [0x02, 0xA5]] ∧
    (after (.rxChunk [0x02]) (vcAWith .batch [[0x04, 0x01]] [])).buf = [[0x04, 0x01]] := by decide
/-- DV07. -/
theorem test_start3 :
    (after (.rxChunk [0x03]) vcA).outputs =
      [.sensorRestart .s1, .sensorRestart .s2, .sensorRestart .s3, .tx [0x03, 0xA5]] ∧
    (after (.rxChunk [0x03]) vcA).mode = .onDemand := by decide
/-- SRC-7. -/
theorem test_getdata :
    (after (.rxChunk [0x04]) (vcAWith .batch [[0x04, 0x01], [0x18, 0x02], [0x2C, 0x03]] [])).outputs =
      [.tx [0x04, 0x00, 0x03, 0x04, 0x01, 0x18, 0x02, 0x2C, 0x03]] ∧
    (after (.rxChunk [0x04]) (vcAWith .batch [[0x04, 0x01], [0x18, 0x02], [0x2C, 0x03]] [])).buf = [] := by decide
/-- SRC-8. -/
theorem test_getdata_empty : (after (.rxChunk [0x04]) vcA).outputs = [.tx [0x04, 0x00, 0x00]] := by decide
/-- SRC-6, DV11. -/
theorem test_cfgs1 :
    (after (.rxChunk [0x05, 0x32]) vcA).outputs = [.sensorConfigure .s1 50, .tx [0x05, 0xA5]] ∧
    (after (.rxChunk [0x05, 0x32]) vcA).period = ⟨50, 1000, 1000⟩ := by decide
/-- DV12. -/
theorem test_cfgs2_zero :
    (after (.rxChunk [0x06, 0x00]) vcA).outputs = [.sensorConfigure .s2 1, .tx [0x06, 0xA5]] ∧
    (after (.rxChunk [0x06, 0x00]) vcA).period = ⟨1000, 1, 1000⟩ := by decide
/-- DV13. -/
theorem test_cfgs3_absent : (after (.rxChunk [0x07]) vcA).period = ⟨1000, 1000, 1⟩ := by decide
/-- DV14. -/
theorem test_cfgs3_unsigned : (after (.rxChunk [0x07, 0xFF]) vcA).period = ⟨1000, 1000, 255⟩ := by decide
/-- DV16. -/
theorem test_cfgbatch :
    (after (.rxChunk [0x08, 0xFF]) vcA).outputs = [.flushIntervalSet 255, .tx [0x08, 0xA5]] ∧
    (after (.rxChunk [0x08, 0xFF]) vcA).batchInterval = 255 := by decide
/-- DV18. -/
theorem test_ignored_opcodes :
    after (.rxChunk [0x09]) vcA = vcA ∧ after (.rxChunk [0x0A]) vcA = vcA ∧ after (.rxChunk [0x0B]) vcA = vcA ∧
    after (.rxChunk [0xFF, 0x01]) vcA = vcA := by decide
/-- DV19. -/
theorem test_empty_chunk : after (.rxChunk []) vcA = vcA := by decide

/-! ### Readings, ticks, reset (95_test_vectors.md L2.2) -/

/-- RT01. -/
theorem test_reading_noMode : after (.reading 1 5 0) vcA = vcA := by decide
/-- RT02, RT03, RT04. -/
theorem test_reading_direct :
    (after (.reading 1 1023 5) (vcAWith .direct [] [])).outputs = [.tx [0x09, 0x57, 0xFF]] ∧
    (after (.reading 0 0 0) (vcAWith .direct [] [])).outputs = [.tx [0x09, 0x00, 0x00]] ∧
    (after (.reading 1 1 16) (vcAWith .direct [] [])).outputs = [.tx [0x09, 0x04, 0x01]] := by decide
/-- RT07. -/
theorem test_reading_batch_evicts :
    (after (.reading 2 5 4) (vcAWith .batch [[0x04, 0x01], [0x18, 0x02], [0x2C, 0x03], [0x34, 0x04]] [])).buf =
      [[0x18, 0x02], [0x2C, 0x03], [0x34, 0x04], [0x48, 0x05]] := by decide
/-- RT06. -/
theorem test_reading_onDemand : (after (.reading 2 2 1) (vcAWith .onDemand [] [])).buf = [[0x18, 0x02]] := by decide
/-- RT08, RT09. -/
theorem test_tick_batch :
    (after .flushTick (vcAWith .batch [[0x04, 0x01], [0x18, 0x02]] [])).outputs =
      [.tx [0x0A, 0x00, 0x02, 0x04, 0x01, 0x18, 0x02]] ∧
    (after .flushTick (vcAWith .batch [] [])).outputs = [.tx [0x0A, 0x00, 0x00]] := by decide
/-- RT10. -/
theorem test_tick_stale :
    after .flushTick (vcAWith .onDemand [[0x18, 0x02]] []) = vcAWith .onDemand [[0x18, 0x02]] [] := by decide
/-- RT14. -/
theorem test_reset_event : after .reset (vcAWith .batch [[0x18, 0x02]] []) = vcA := by decide

/-! ### The frame encoder (95_test_vectors.md L2.3, L2.4) -/

/-- PK01, PK03, PK04, PK05 under VC-A; PK08, PK10 under VC-B. -/
theorem test_pack :
    pack (Config.vcA 1 0) 5 1 1023 = [0x57, 0xFF] ∧ pack (Config.vcA 1 0) 17 2 512 = [0x1A, 0x00] ∧
    pack (Config.vcA 1 0) 15 3 1023 = [0xFF, 0xFF] ∧ pack (Config.vcA 1 0) 0 0 0 = [0x00, 0x00] ∧
    pack (Config.vcB 1 0) 0x12345 2 0x155 = [0x12, 0x34, 0x59, 0x55] ∧
    pack (Config.vcB 1 0) 0x100000 1 1 = [0x00, 0x00, 0x04, 0x01] := by decide
/-- PK06, PK07, PK12, PK13: other timestamp widths. -/
theorem test_pack_widths :
    pack { Config.vcA 1 0 with tsBits := 0 } 99 1 1023 = [0x07, 0xFF] ∧
    pack { Config.vcA 1 0 with tsBits := 6 } 63 3 1023 = [0x03, 0xFF, 0xFF] ∧
    pack { Config.vcA 1 0 with tsBits := 12 } 0xABC 2 0x155 = [0xAB, 0xC9, 0x55] ∧
    pack { Config.vcA 1 0 with tsBits := 13 } 0x1ABC 2 0x155 = [0x01, 0xAB, 0xC9, 0x55] := by decide
/-- SRC-2. -/
theorem test_unpack : unpack [0x12, 0x34, 0x59, 0x55] = (0x12345, 2, 0x155) := by decide
/-- The table of L2.4, its corners. -/
theorem test_freqOf :
    [1, 50, 64, 67, 69, 80, 100, 255, 1000, 2000, 2001, 65535].map freqOf =
      [15, 15, 15, 15, 14, 13, 10, 4, 1, 1, 0, 0] := by decide
/-- The table of L2.4, its corners. -/
theorem test_rateOf :
    [1, 3, 4, 5, 8, 50, 64, 80, 200, 400, 1000, 2000, 2001].map rateOf =
      [255, 255, 250, 200, 125, 20, 16, 13, 5, 3, 1, 1, 0] := by decide
/-- FR02, FR04, FR09's header. -/
theorem test_frames :
    failFrame (Config.vcA 0xA5 0x5A) 0x02 = [0x02, 0x5A] ∧
    frequenciesFrame ⟨80, 1000, 1000⟩ 200 = [0x00, 0x0D, 0x01, 0x01, 0x05] ∧
    flushFrame 0x04 300 [] = [0x04, 0x01, 0x2C] := by decide
/-- VC-A with `C = 1`. -/
def vcAOne : Cfg := { Config.vcA 1 0 with capacity := 1, capacity_pos := by decide, capacity_le := by decide }
/-- BF04: with `C = 1` an append replaces the single entry. -/
theorem test_append_capacity_one :
    (bufAppend [0x18, 0x02] { State.resetWith vcAOne with buf := [[0x04, 0x01]] }).buf =
      [[0x18, 0x02]] := by decide
/-- 00_scope.md R6: the port widths and the number of sensors are the record's constants. -/
theorem test_port_widths :
    ReadingValue = BitVec Config.valueBits ∧ ReadingId = BitVec Config.idBits ∧
    [Sensor.s1, .s2, .s3].length = Config.numSensors := ⟨rfl, rfl, rfl⟩
/-- 60_exceptions.md R217: the walk clamps at both ends. -/
theorem test_sensor_walk_clamps :
    nextValue 5 0 = 0 ∧ nextValue 1020 59 = 1023 ∧ nextValue 100 30 = 100 := by decide

/-! ### Values that meet the hypotheses of each statement -/

/-- A legal VC-A state in Batch with two entries and a tick before it. -/
def busy : State := vcAWith .batch [[0x04, 0x01], [0x18, 0x02]] [.flushTick]

theorem witness_decode_of_encode :
    (Instr.cfgs1 (some 0)).wellFormed = true ∧ (Instr.unrecognized80 0xFF (some 255)).wellFormed = true := by decide
theorem witness_encode_of_decode : decode [0x01, 0x77, 0x03] = .ok (.start1 (some 0x77)) := by decide
theorem witness_opcode_map :
    (0x0C ≤ (0x0C : Byte).toNat ∧ (0x0F : Byte).toNat ≤ 0x0F) ∧ (0x10 ≤ (0x10 : Byte).toNat ∧ (0x1F : Byte).toNat ≤ 0x1F) ∧
    (0x20 ≤ (0x20 : Byte).toNat ∧ (0x3F : Byte).toNat ≤ 0x3F) ∧ (0x40 ≤ (0x40 : Byte).toNat ∧ (0x7F : Byte).toNat ≤ 0x7F) ∧
    0x80 ≤ (0x80 : Byte).toNat ∧ 0x80 ≤ (0xFF : Byte).toNat := by decide
theorem witness_fetch_word : decodeTableWord 8 0x80 = some (.unrecognized80 0x80 (some 0)) := by decide
theorem witness_step_runs_command :
    (vcAWith .batch [] [.rxChunk [0x05, 0x32]]).inputs = .rxChunk [0x05, 0x32] :: [] ∧
    decode [0x05, 0x32] = .ok (.cfgs1 (some 50)) ∧ (Instr.cfgs1 (some 50)).wellFormed = true := by decide
theorem witness_empty_chunk : (vcAWith .batch [] [.rxChunk []]).inputs = .rxChunk [] :: [] := by decide
theorem witness_nothing_presented : vcA.inputs = [] := by decide
theorem witness_stop : vcA.started = false ∧ ({ vcA with started := true } : State).started = true := by decide
theorem witness_getdata_count :
    (∀ e ∈ busy.buf, e.length = (busy.cfg.tsBits + 19) / 8) ∧ busy.buf.length ≤ 65535 := by decide
theorem witness_clamped_operand :
    (1 : Word16) = BitVec.ofNat 16 (max ((none : Option Byte).getD 0).toNat 1) ∧
    (255 : Word16) = BitVec.ofNat 16 (max ((some 0xFF : Option Byte).getD 0).toNat 1) := by decide
theorem witness_unrecognized :
    (0x0B ≤ (0x0B : Byte).toNat ∧ (vcAWith .batch [] [.rxChunk [0x0B]]).inputs = .rxChunk (0x0B :: []) :: []) ∧
    (0x0B ≤ (0xFF : Byte).toNat ∧ (vcAWith .batch [] [.rxChunk [0xFF, 5]]).inputs = .rxChunk (0xFF :: [5]) :: []) := by
  decide
theorem witness_reserved :
    ((0x09 : Byte) = 0x09 ∨ (0x09 : Byte) = 0x0A) ∧ ((0x0A : Byte) = 0x09 ∨ (0x0A : Byte) = 0x0A) ∧
    (vcAWith .direct [] [.rxChunk [0x0A]]).inputs = .rxChunk (0x0A :: []) :: [] := by decide
theorem witness_reading_modes :
    (vcAWith .noMode [] [.reading 2 7 20]).inputs = .reading 2 7 20 :: [] ∧
    (vcAWith .noMode [] [.reading 2 7 20]).mode = .noMode ∧
    ((vcAWith .batch [] [.reading 2 7 20]).mode = .batch ∨ (vcAWith .batch [] [.reading 2 7 20]).mode = .onDemand) ∧
    ((vcAWith .onDemand [] [.reading 2 7 20]).mode = .batch ∨ (vcAWith .onDemand [] [.reading 2 7 20]).mode = .onDemand) ∧
    (vcAWith .direct [] [.reading 2 7 20]).mode = .direct := by decide
theorem witness_flush_tick :
    busy.inputs = .flushTick :: [] ∧ busy.mode = .batch ∧ (vcAWith .direct [] [.flushTick]).mode ≠ .batch := by decide
theorem witness_flush_empty :
    (vcAWith .batch [] [.flushTick]).buf = [] ∧ (vcAWith .batch [] [.flushTick]).inputs = .flushTick :: [] ∧
    (vcAWith .batch [] [.flushTick]).mode = .batch := by decide
theorem witness_reset_event : (vcAWith .batch [[0x18, 0x02]] [.reset]).inputs = .reset :: [] := by decide
theorem witness_unpack_padding : beNat [0xFF, 0xFF] < 2 ^ ((Config.vcA 1 0).tsBits + 12) := by decide
theorem witness_round_trip : 15 < 2 ^ (Config.vcA 1 0).tsBits := by decide
theorem witness_entry_width :
    (Config.vcA 1 0).tsBits ≤ 4 ∧
    (5 ≤ ({ Config.vcA 1 0 with tsBits := 5 } : Cfg).tsBits ∧ ({ Config.vcA 1 0 with tsBits := 12 } : Cfg).tsBits ≤ 12) ∧
    (13 ≤ ({ Config.vcA 1 0 with tsBits := 13 } : Cfg).tsBits ∧ (Config.vcB 1 0).tsBits ≤ 20) ∧
    ({ Config.vcA 1 0 with tsBits := 12 } : Cfg).tsBits = (Config.vcA 1 0).tsBits + 8 := by decide
theorem witness_rounding :
    (1 ≤ (1 : Word16).toNat ∧ 2 * (1 : Word16).toNat * 1000 ≤ 2000 + (1 : Word16).toNat ∧
      2000 + (1 : Word16).toNat < 2 * (1 : Word16).toNat * (1000 + 1)) ∧
    (1 ≤ (80 : Word16).toNat ∧ 2 * (80 : Word16).toNat * 13 ≤ 2000 + (80 : Word16).toNat ∧
      2000 + (80 : Word16).toNat < 2 * (80 : Word16).toNat * (13 + 1)) ∧
    (1 ≤ (65535 : Word16).toNat ∧ 2 * (65535 : Word16).toNat * 0 ≤ 2000 + (65535 : Word16).toNat ∧
      2000 + (65535 : Word16).toNat < 2 * (65535 : Word16).toNat * (0 + 1)) := by decide
theorem witness_period_order : 1 ≤ (1 : Word16).toNat ∧ (1 : Word16).toNat ≤ (65535 : Word16).toNat := by decide
theorem witness_flush_count_range : 65535 ≤ 65535 := by decide
theorem witness_append :
    (vcAWith .batch [[0, 0], [0, 1], [0, 2], [0, 3]] []).cfg.capacity ≤
      (vcAWith .batch [[0, 0], [0, 1], [0, 2], [0, 3]] []).buf.length ∧
    (vcAWith .batch [[0, 0], [0, 1], [0, 2], [0, 3]] []).buf.length ≤
      (vcAWith .batch [[0, 0], [0, 1], [0, 2], [0, 3]] []).cfg.capacity ∧
    busy.buf.length < busy.cfg.capacity := by decide
theorem witness_drain :
    vcA.buf = [] ∧ busy.buf = [0x04, 0x01] :: [[0x18, 0x02]] ∧ ∀ e ∈ busy.buf, e.length = entryWidth busy.cfg := by decide
theorem witness_buf_legal : BufLegal busy.cfg busy.buf := by decide
theorem witness_on_demand :
    (vcAWith .onDemand [] [.reading 1 100 3, .rxChunk [0x04]]).mode = .onDemand ∧
    (vcAWith .onDemand [] [.reading 1 100 3, .rxChunk [0x04]]).buf = [] ∧
    (vcAWith .onDemand [] [.reading 1 100 3, .rxChunk [0x04]]).inputs =
      [((1 : ReadingId), (100 : ReadingValue), 3)].map (fun r => .reading r.1 r.2.1 r.2.2) ++ [.rxChunk [0x04]] := by decide
theorem witness_new_entry :
    ∃ t : State, step (vcAWith .batch [] [.reading 2 2 1]) = .next t ∧ [0x18, 0x02] ∈ t.buf ∧
      [0x18, 0x02] ∉ (vcAWith .batch [] [.reading 2 2 1]).buf :=
  ⟨_, rfl, by decide, by decide⟩
theorem witness_legal_step : Legal busy ∧ ∃ t : State, step busy = .next t := ⟨by decide, _, rfl⟩
theorem witness_exec : ∃ t : State, exec (.stop none) busy = .next t := ⟨_, rfl⟩
theorem witness_reading_or_tick :
    ∃ t : State, busy.inputs = InputEvent.flushTick :: [] ∧ step busy = .next t := ⟨_, by decide, rfl⟩
theorem witness_reading_event :
    ∃ t : State, (vcAWith .direct [] [.reading 1 2 3]).inputs = InputEvent.reading 1 2 3 :: [] ∧
      step (vcAWith .direct [] [.reading 1 2 3]) = .next t := ⟨_, by decide, rfl⟩
theorem witness_reentry :
    (vcAWith .direct [] []).mode = .direct ∧ (vcAWith .batch [] []).mode = .batch ∧
    (vcAWith .onDemand [] []).mode = .onDemand ∧
    ({ vcA with started := true } : State).mode = .noMode ∧ ({ vcA with started := true } : State).started = true := by
  decide
theorem witness_recognized :
    ∃ t : State, (Instr.cfgbatch none).wellFormed = true ∧ exec (.cfgbatch none) vcA = .next t ∧
      (Instr.cfgbatch none).opcode.toNat ≤ 0x08 := ⟨_, by decide, rfl, by decide⟩
theorem witness_not_recognized :
    ∃ t : State, (Instr.reserved09 none).wellFormed = true ∧ exec (.reserved09 none) vcA = .next t ∧
      0x09 ≤ (Instr.reserved09 none).opcode.toNat := ⟨_, by decide, rfl, by decide⟩
theorem witness_sent_frame :
    ∃ t : State, step busy = .next t ∧ [0x0A, 0x00, 0x02, 0x04, 0x01, 0x18, 0x02] ∈ txFrames (newOutputs busy t) :=
  ⟨_, rfl, by decide⟩
theorem witness_configure_then_stop :
    (vcAWith .noMode [] [.rxChunk [0x06, 80], .rxChunk [0x00]]).started = false ∧
    (vcAWith .noMode [] [.rxChunk [0x06, 80], .rxChunk [0x00]]).inputs =
      .rxChunk [0x04 + BitVec.ofNat 8 (sensorNumber .s2), 80] :: .rxChunk [0x00] :: [] ∧
    (vcAWith .noMode [] [.rxChunk [0x08, 0], .rxChunk [0x00]]).inputs =
      .rxChunk [0x08, 0] :: .rxChunk [0x00] :: [] := by decide
theorem witness_lockstep :
    Lockstep (buildEnvironment vcA.cfg) vcA ∧ (∃ t : State, step vcA = .next t) ∧ vcA.inputs.head? ≠ some .reset :=
  ⟨⟨fun n => by cases n <;> rfl, rfl⟩, ⟨_, rfl⟩, by decide⟩

end Sys2Proof.Tests
end

