-- ==== Sys2Proof/Proofs/Scope.lean ====
section
/-! SUPPORT. The configuration record (00_scope.md R6 to R8): no operation writes it, and the entry width it fixes. -/

namespace Sys2Proof.Machine

/-! ### The configuration is kept -/

@[simp] theorem flush_cfg (tag : Byte) (s : State) : (flush tag s).cfg = s.cfg := by rw [flush_spec]

@[simp] theorem startMode_cfg (m : Mode) (op : Byte) (control : List OutputEvent) (s : State) :
    (startMode m op control s).cfg = s.cfg := by rw [startMode_spec]

@[simp] theorem configureSensor_cfg (n : Sensor) (data : Option Byte) (s : State) :
    (configureSensor n data s).cfg = s.cfg := by rw [configureSensor_spec]

/-- Every command completes, and each of the effects `exec_cases` lists is composed of operations that keep `cfg`. -/
theorem exec_completes_keeping_cfg (i : Instr) (s : State) : ∃ t : State, exec i s = .next t ∧ t.cfg = s.cfg := by
  rcases exec_cases i s with
    ⟨_, -, -, firstStop⟩ | ⟨_, -, -, laterStop⟩ | ⟨_, -, start1⟩ | ⟨_, -, start2⟩ | ⟨_, -, start3⟩ |
    ⟨_, -, getdata⟩ | ⟨_, _, -, configure⟩ | ⟨_, -, cfgbatch⟩ | ⟨-, ignored⟩
  · exact ⟨_, firstStop, by simp⟩
  · exact ⟨_, laterStop, by simp⟩
  · exact ⟨_, start1, by simp⟩
  · exact ⟨_, start2, by simp⟩
  · exact ⟨_, start3, by simp⟩
  · exact ⟨_, getdata, by simp⟩
  · exact ⟨_, configure, by simp⟩
  · exact ⟨_, cfgbatch, by simp⟩
  · exact ⟨_, ignored, rfl⟩

/-- Every step completes and keeps `cfg`: an idle one, a command's, and that of every other event. -/
theorem step_completes_keeping_cfg (s : State) : ∃ t : State, step s = .next t ∧ t.cfg = s.cfg := by
  rcases step_cases s with ⟨-, idle⟩ | ⟨e, rest, -, event⟩
  · exact ⟨_, idle, rfl⟩
  rcases event with
    ⟨op, tail, -, command⟩ | ⟨-, emptyChunk⟩ |
    ⟨_, _, _, -, ⟨-, dropped⟩ | ⟨-, sent⟩ | ⟨-, buffered⟩⟩ |
    ⟨-, -, periodicFlush⟩ | ⟨-, -, staleTick⟩ | ⟨-, reset⟩
  · rw [command]
    exact exec_completes_keeping_cfg _ (takeInput rest s)
  · exact ⟨_, emptyChunk, by simp⟩
  · exact ⟨_, dropped, by simp⟩
  · exact ⟨_, sent, by simp⟩
  · exact ⟨_, buffered, by simp⟩
  · exact ⟨_, periodicFlush, by simp⟩
  · exact ⟨_, staleTick, by simp⟩
  · exact ⟨_, reset, by simp⟩

/-- Settles O44: a step has one outcome, and that outcome keeps the configuration. -/
theorem configurationNeverChanges : Obligations.ConfigurationNeverChanges := by
  intro s t hstep
  obtain ⟨u, hu, hcfg⟩ := step_completes_keeping_cfg s
  have htu : t = u := Host.Outcome.next.inj (hstep.symm.trans hu)
  rw [htu, hcfg]

/-! ### The entry width -/

/-- The entry width is the least number of bytes that holds the timestamp, the id and the value: `w` bytes, when all of
them fit in `w` and not in one byte less (00_scope.md R7). -/
theorem entryWidth_eq_iff (c : Cfg) (w : Nat) :
    entryWidth c = w ↔ c.tsBits + 12 ≤ 8 * w ∧ 8 * w < c.tsBits + 12 + 8 := by
  unfold entryWidth; omega

/-- Settles O29: each range of `TS_BITS` is the one that fills its number of bytes, and 8 more bits fill one more. -/
theorem entryWidthFollowsTheTimestampWidth : Obligations.EntryWidthFollowsTheTimestampWidth := by
  intro c c'
  refine ⟨rfl, fun h => ?twoBytes, fun h => ?threeBytes, fun h => ?fourBytes, fun h => ?oneByteMore⟩
  case twoBytes => rw [entryWidth_eq_iff]; omega
  case threeBytes => rw [entryWidth_eq_iff]; omega
  case fourBytes => rw [entryWidth_eq_iff]; omega
  case oneByteMore =>
    obtain ⟨hfits, hleast⟩ := (entryWidth_eq_iff c _).1 rfl
    rw [entryWidth_eq_iff]; omega

end Sys2Proof.Machine
end

