-- ==== Sys2Proof/Proofs/ArchState.lean ====
section
/-! SUPPORT. The architectural state (10_state.md): the code of the mode, who writes each field (R31), and the invariants
that every step keeps (R32). -/

namespace Sys2Proof.Machine

/-! ### The code of the mode (10_state.md R22) -/

@[simp] theorem modeOfCode_modeCode (m : Mode) : modeOfCode (modeCode m) = m := by
  cases m <;> rfl

@[simp] theorem modeCode_modeOfCode : ∀ code : BitVec 2, modeCode (modeOfCode code) = code := by
  decide

/-- Settles O53: the codes are those of R22, and reading a code is inverse to writing it. -/
theorem modeCodesAreABijection : Obligations.ModeCodesAreABijection :=
  ⟨rfl, rfl, rfl, rfl, modeOfCode_modeCode, modeCode_modeOfCode⟩

/-! ### What the composed operations leave in each field -/

@[simp] theorem flush_mode (tag : Byte) (s : State) : (flush tag s).mode = s.mode := by rw [flush_spec]
@[simp] theorem flush_started (tag : Byte) (s : State) : (flush tag s).started = s.started := by rw [flush_spec]
@[simp] theorem flush_period (tag : Byte) (s : State) : (flush tag s).period = s.period := by rw [flush_spec]
@[simp] theorem flush_batchInterval (tag : Byte) (s : State) :
    (flush tag s).batchInterval = s.batchInterval := by rw [flush_spec]
@[simp] theorem flush_buf (tag : Byte) (s : State) : (flush tag s).buf = [] := by rw [flush_spec]
@[simp] theorem flush_inputs (tag : Byte) (s : State) : (flush tag s).inputs = s.inputs := by rw [flush_spec]

section
variable (m : Mode) (op : Byte) (control : List OutputEvent) (s : State)

@[simp] theorem startMode_started : (startMode m op control s).started = s.started := by rw [startMode_spec]
@[simp] theorem startMode_period : (startMode m op control s).period = s.period := by rw [startMode_spec]
@[simp] theorem startMode_batchInterval : (startMode m op control s).batchInterval = s.batchInterval := by
  rw [startMode_spec]
@[simp] theorem startMode_buf : (startMode m op control s).buf = s.buf := by rw [startMode_spec]
@[simp] theorem startMode_inputs : (startMode m op control s).inputs = s.inputs := by rw [startMode_spec]

end

section
variable (n : Sensor) (data : Option Byte) (s : State)

@[simp] theorem configureSensor_mode : (configureSensor n data s).mode = s.mode := by rw [configureSensor_spec]
@[simp] theorem configureSensor_started : (configureSensor n data s).started = s.started := by
  rw [configureSensor_spec]
@[simp] theorem configureSensor_period :
    (configureSensor n data s).period = putPeriod s.period n (clampedMs data) := by rw [configureSensor_spec]
@[simp] theorem configureSensor_batchInterval :
    (configureSensor n data s).batchInterval = s.batchInterval := by rw [configureSensor_spec]
@[simp] theorem configureSensor_buf : (configureSensor n data s).buf = s.buf := by rw [configureSensor_spec]
@[simp] theorem configureSensor_inputs : (configureSensor n data s).inputs = s.inputs := by
  rw [configureSensor_spec]

end

section
variable (p : Periods) (n : Sensor) (v : Word16)

@[simp] theorem putPeriod_s1 : (putPeriod p n v).s1 = if n = .s1 then v else p.s1 := by cases n <;> rfl
@[simp] theorem putPeriod_s2 : (putPeriod p n v).s2 = if n = .s2 then v else p.s2 := by cases n <;> rfl
@[simp] theorem putPeriod_s3 : (putPeriod p n v).s3 = if n = .s3 then v else p.s3 := by cases n <;> rfl

end

/-! ### Who writes each field (10_state.md R31) -/

/-- Settles O45: each of the effects `exec_cases` lists is composed of operations whose field lemmas leave every field as
it was, but the one that belongs to the command of that effect. -/
theorem commandsWriteOnlyTheirFields : Obligations.CommandsWriteOnlyTheirFields := by
  intro i s t hexec
  rcases exec_cases i s with
    ⟨d, rfl, -, firstStop⟩ | ⟨d, rfl, -, laterStop⟩ | ⟨d, rfl, start1⟩ | ⟨d, rfl, start2⟩ | ⟨d, rfl, start3⟩ |
    ⟨d, rfl, getdata⟩ | ⟨d, n, ⟨rfl, rfl⟩ | ⟨rfl, rfl⟩ | ⟨rfl, rfl⟩, configure⟩ | ⟨d, rfl, cfgbatch⟩ | ⟨-, ignored⟩
  · cases firstStop.symm.trans hexec; simp
  · cases laterStop.symm.trans hexec; simp
  · cases start1.symm.trans hexec; simp
  · cases start2.symm.trans hexec; simp
  · cases start3.symm.trans hexec; simp
  · cases getdata.symm.trans hexec; simp
  · cases configure.symm.trans hexec; simp
  · cases configure.symm.trans hexec; simp
  · cases configure.symm.trans hexec; simp
  · cases cfgbatch.symm.trans hexec; simp
  · cases ignored.symm.trans hexec; simp

/-- Settles O46: of the effects `step_cases` lists, the five that a reading or a flush tick can have append to the buffer,
drain it, or write nothing. -/
theorem readingsAndTicksWriteOnlyTheBuffer : Obligations.ReadingsAndTicksWriteOnlyTheBuffer := by
  intro s t e rest hinputs hevent hstep
  rcases step_cases s with ⟨hidle, -⟩ | ⟨e', rest', hinputs', effect⟩
  · simp [hidle] at hinputs
  obtain ⟨rfl, rfl⟩ : e' = e ∧ rest' = rest := List.cons.inj (hinputs'.symm.trans hinputs)
  rcases effect with
    ⟨_, _, rfl, -⟩ | ⟨rfl, -⟩ |
    ⟨_, _, _, -, ⟨-, dropped⟩ | ⟨-, sent⟩ | ⟨-, buffered⟩⟩ |
    ⟨-, -, periodicFlush⟩ | ⟨-, -, staleTick⟩ | ⟨rfl, -⟩
  · simp at hevent
  · simp at hevent
  · cases dropped.symm.trans hstep; simp
  · cases sent.symm.trans hstep; simp
  · cases buffered.symm.trans hstep; simp
  · cases periodicFlush.symm.trans hstep; simp
  · cases staleTick.symm.trans hstep; simp
  · simp at hevent

/-! ### Every operation keeps the invariants (10_state.md R32)

`Legal` reads only `cfg`, `buf`, `period` and `batchInterval`, so an operation that writes none of them keeps it as it
stands. -/

/-- A packed reading fits its entry: its number has `TS_BITS + 12` bits, so the padding above them is zero. -/
theorem pack_legal (c : Cfg) (ts : Nat) (id : ReadingId) (value : ReadingValue) : EntryLegal c (pack c ts id value) := by
  refine ⟨pack_length c ts id value, ?_⟩
  calc beNat (pack c ts id value)
      = packedNat c ts id value % 2 ^ (8 * entryWidth c) := beNat_of_beBytes _ _
    _ ≤ packedNat c ts id value := Nat.mod_le _ _
    _ < 2 ^ (c.tsBits + 12) := packedNat_lt c ts id value

theorem clampedMs_legal (data : Option Byte) : Config.minPeriodMs ≤ (clampedMs data).toNat := by
  rw [clampedMs_toNat]; exact Nat.le_max_right _ _

theorem putPeriod_legal {p : Periods} {v : Word16} (n : Sensor) (hp : PeriodsLegal p)
    (hv : Config.minPeriodMs ≤ v.toNat) : PeriodsLegal (putPeriod p n v) := by
  obtain ⟨h1, h2, h3⟩ := hp
  cases n with
  | s1 => exact ⟨hv, h2, h3⟩
  | s2 => exact ⟨h1, hv, h3⟩
  | s3 => exact ⟨h1, h2, hv⟩

/-- The reset values are legal because `Cfg` carries the bounds of 00_scope.md R6 as proof fields. -/
theorem resetWith_legal (c : Cfg) : Legal (State.resetWith c) :=
  ⟨by simp [BufLegal], ⟨c.periodReset1_legal, c.periodReset2_legal, c.periodReset3_legal⟩, c.batchReset_legal⟩

/-- Settles O41: `State.reset` is the reset state of one configuration. -/
theorem resetStateIsLegal : Obligations.ResetStateIsLegal := ⟨resetWith_legal Config.cfg, resetWith_legal⟩

/-- The Reset event needs no legal state before it: what `Legal` reads is then as in the reset state of `s.cfg`. -/
theorem resetBlock_legal (s : State) : Legal (resetBlock s) := resetWith_legal s.cfg

section
variable {s : State} (hs : Legal s)
include hs

theorem emit_legal (os : List OutputEvent) : Legal (emit os s) := hs

theorem setMode_legal (m : Mode) : Legal (setMode m s) := hs

theorem setStarted_legal : Legal (setStarted s) := hs

theorem takeInput_legal (rest : List InputEvent) : Legal (takeInput rest s) := hs

theorem startMode_legal (m : Mode) (op : Byte) (control : List OutputEvent) : Legal (startMode m op control s) :=
  emit_legal (setMode_legal hs m) _

theorem setBatchInterval_legal {i : Word16} (hi : Config.minPeriodMs ≤ i.toNat) : Legal (setBatchInterval i s) := by
  obtain ⟨hbuf, hperiod, -⟩ := hs
  exact ⟨hbuf, hperiod, hi⟩

theorem configureSensor_legal (n : Sensor) (data : Option Byte) : Legal (configureSensor n data s) := by
  obtain ⟨hbuf, hperiod, hbatch⟩ := hs
  exact ⟨hbuf, putPeriod_legal n hperiod (clampedMs_legal data), hbatch⟩

theorem bufAppend_legal {e : Entry} (he : EntryLegal s.cfg e) : Legal (bufAppend e s) := by
  obtain ⟨hbuf, hperiod, hbatch⟩ := hs
  exact ⟨bufAppend_keeps_form e s hbuf he, hperiod, hbatch⟩

theorem flush_legal (tag : Byte) : Legal (flush tag s) := by
  obtain ⟨-, hperiod, hbatch⟩ := hs
  exact ⟨bufDrain_keeps_form s, hperiod, hbatch⟩

end

/-! ### Every command, step and run keeps the invariants -/

theorem exec_safe (i : Instr) {s : State} (hs : Legal s) : SafeOutcome (exec i s) := by
  rcases exec_cases i s with
    ⟨_, -, -, firstStop⟩ | ⟨_, -, -, laterStop⟩ | ⟨_, -, start1⟩ | ⟨_, -, start2⟩ | ⟨_, -, start3⟩ |
    ⟨_, -, getdata⟩ | ⟨d, n, -, configure⟩ | ⟨d, -, cfgbatch⟩ | ⟨-, ignored⟩
  · rw [firstStop]; exact emit_legal (setStarted_legal hs) _
  · rw [laterStop]; exact emit_legal (setMode_legal hs _) _
  · rw [start1]; exact startMode_legal hs _ _ _
  · rw [start2]; exact startMode_legal hs _ _ _
  · rw [start3]; exact startMode_legal hs _ _ _
  · rw [getdata]; exact flush_legal hs _
  · rw [configure]; exact configureSensor_legal hs n d
  · rw [cfgbatch]; exact emit_legal (setBatchInterval_legal hs (clampedMs_legal d)) _
  · rw [ignored]; exact hs

theorem step_safe {s : State} (hs : Legal s) : SafeOutcome (step s) := by
  rcases step_cases s with ⟨-, idle⟩ | ⟨e, rest, -, event⟩
  · rw [idle]; exact hs
  have hu : Legal (takeInput rest s) := takeInput_legal hs rest
  rcases event with
    ⟨op, tail, -, command⟩ | ⟨-, emptyChunk⟩ |
    ⟨id, value, ts, -, ⟨-, dropped⟩ | ⟨-, sent⟩ | ⟨-, buffered⟩⟩ |
    ⟨-, -, periodicFlush⟩ | ⟨-, -, staleTick⟩ | ⟨-, reset⟩
  · rw [command]; exact exec_safe _ hu
  · rw [emptyChunk]; exact hu
  · rw [dropped]; exact hu
  · rw [sent]; exact emit_legal hu _
  · rw [buffered]; exact bufAppend_legal hu (pack_legal s.cfg ts id value)
  · rw [periodicFlush]; exact flush_legal hu _
  · rw [staleTick]; exact hu
  · rw [reset]; exact resetBlock_legal _

/-- Settles O42: a step from a legal state has a safe outcome, and its next state is that outcome. -/
theorem everyStepKeepsTheStateLegal : Obligations.EveryStepKeepsTheStateLegal := by
  intro s t hs hstep
  have hsafe : SafeOutcome (step s) := step_safe hs
  rwa [hstep] at hsafe

/-- What every step completes with and keeps, every run completes with and keeps. -/
theorem runSteps_keeps {P : State → Prop} (hstep : ∀ s, P s → ∃ t, step s = .next t ∧ P t) (k : Nat) {s : State}
    (hs : P s) : ∃ t, runSteps k s = .next t ∧ P t := by
  induction k generalizing s with
  | zero => exact ⟨s, rfl, hs⟩
  | succ k ih =>
    obtain ⟨u, hu, hPu⟩ := hstep s hs
    simpa [runSteps, hu] using ih hPu

/-- Settles O43: legality under the configuration `c` holds at reset, whatever the schedule, and is kept by every step;
the bounds are those of `Legal`, with `entryWidth c` and `MIN_PERIOD_MS` as numbers. -/
theorem everyReachableStateIsLegal : Obligations.EveryReachableStateIsLegal := by
  intro c events k
  have hstep : ∀ s, Legal s ∧ s.cfg = c → ∃ t, step s = .next t ∧ Legal t ∧ t.cfg = c := by
    rintro s ⟨hs, hcfg⟩
    obtain ⟨t, ht, htcfg⟩ := step_completes_keeping_cfg s
    exact ⟨t, ht, everyStepKeepsTheStateLegal s t hs ht, htcfg.trans hcfg⟩
  obtain ⟨t, hrun, ⟨⟨hlen, hentries⟩, ⟨h1, h2, h3⟩, hbatch⟩, rfl⟩ :=
    runSteps_keeps hstep k (s := { State.resetWith c with inputs := events }) ⟨resetWith_legal c, rfl⟩
  exact ⟨t, hrun, hlen, hentries, h1, h2, h3, hbatch⟩

end Sys2Proof.Machine
end

