-- ==== Sys2Proof/Proofs/Memory.lean ====
section
/-! SUPPORT. The reading FIFO as the block's storage (20_memory.md): what it holds after any number of appends, the count of
a flush, and the run that buffers a schedule of readings and then drains them in arrival order (R62). -/

namespace Sys2Proof.Machine

/-! ### Appends leave the last `C` entries (43_reading_buffer.md R192) -/

/-- The FIFO holds the last `C` of the entries that arrived, oldest first. -/
def HoldsLastOf (arrived : List Entry) (s : State) : Prop :=
  s.buf = arrived.drop (arrived.length - s.cfg.capacity)

/-- `BufAppend` of each entry in turn, the first one first. -/
abbrev bufAppendAll (es : List Entry) (s : State) : State := es.foldl (fun u e => bufAppend e u) s

theorem holdsLastOf_nil {s : State} : HoldsLastOf [] s ↔ s.buf = [] := by simp [HoldsLastOf]

/-- An append makes its entry the latest to arrive: the entry it evicts from a full FIFO is the one that is no longer among
the last `C`. -/
theorem bufAppend_holdsLastOf {arrived : List Entry} {s : State} (e : Entry) (h : HoldsLastOf arrived s) :
    HoldsLastOf (arrived ++ [e]) (bufAppend e s) := by
  have hpos := s.cfg.capacity_pos
  unfold HoldsLastOf at h ⊢
  rw [bufAppend_buf, bufAppend_cfg, h, List.length_drop, List.length_append, List.length_singleton]
  by_cases hfull : s.cfg.capacity ≤ arrived.length
  · have hevict : s.cfg.capacity ≤ arrived.length - (arrived.length - s.cfg.capacity) := by omega
    rw [if_pos hevict, List.tail_drop, ← List.drop_append_of_le_length (by omega), Nat.sub_add_comm hfull]
  · have hroom : ¬ s.cfg.capacity ≤ arrived.length - (arrived.length - s.cfg.capacity) := by omega
    have hall : arrived.length - s.cfg.capacity = 0 := by omega
    have hall' : arrived.length + 1 - s.cfg.capacity = 0 := by omega
    rw [if_neg hroom, hall, hall', List.drop_zero, List.drop_zero]

/-- All that appending a list of entries does. -/
theorem bufAppendAll_spec {arrived : List Entry} {s : State} (es : List Entry) (h : HoldsLastOf arrived s) :
    bufAppendAll es s =
      { s with buf := (arrived ++ es).drop ((arrived ++ es).length - s.cfg.capacity) } := by
  induction es generalizing arrived s with
  | nil =>
    rw [List.append_nil, ← h]
    rfl
  | cons e es ih =>
    have hrest := ih (bufAppend_holdsLastOf e h)
    rw [List.append_assoc, List.singleton_append] at hrest
    exact hrest

/-! ### The count of a flush (43_reading_buffer.md R194) -/

/-- Entries of `W` bytes make the count of a flush, the drained byte length divided by `W`, the number of entries. -/
theorem flush_of_width {s : State} (tag : Byte) (hwidth : ∀ e ∈ s.buf, e.length = entryWidth s.cfg) :
    flush tag s =
      { s with buf := [], outputs := s.outputs ++ [.tx (flushFrame tag s.buf.length s.buf.flatten)] } := by
  have hpos : 0 < entryWidth s.cfg := Nat.lt_of_lt_of_le Nat.two_pos (entryWidth_ge_two s.cfg)
  rw [flush_spec, flatten_length_of_width _ _ hwidth, Nat.mul_div_cancel_left _ hpos]

/-! ### Runs of readings that are buffered (41_routing.md R143, R144) -/

theorem step_of_inputs {s : State} {e : InputEvent} {rest : List InputEvent} (h : s.inputs = e :: rest) :
    step s = onEvent e (takeInput rest s) := by simp [step, h]

theorem step_of_buffered_reading {s : State} {id : ReadingId} {value : ReadingValue} {ts : Nat}
    {rest : List InputEvent} (hmode : s.mode = .batch ∨ s.mode = .onDemand)
    (hinputs : s.inputs = .reading id value ts :: rest) :
    step s = .next (bufAppend (pack s.cfg ts id value) (takeInput rest s)) := by
  rw [step_of_inputs hinputs]
  rcases hmode with hmode | hmode <;> simp [onEvent, onReading, hmode]

/-- GetData on a FIFO of entries of `W` bytes sends them, oldest first, and empties it (40_dispatch.md R105). -/
theorem step_of_getdata {s : State} {rest : List InputEvent} (hinputs : s.inputs = .rxChunk [0x04] :: rest)
    (hwidth : ∀ e ∈ s.buf, e.length = entryWidth s.cfg) :
    step s = .next
      { s with
        inputs := rest
        buf := []
        outputs := s.outputs ++ [.tx (flushFrame 0x04 s.buf.length s.buf.flatten)] } :=
  calc step s
      = .next (flush Config.forcedTag (takeInput rest s)) := step_of_inputs hinputs
    _ = _ := by rw [flush_of_width (s := takeInput rest s) _ hwidth]; rfl

theorem runSteps_succ_of_step {s t : State} (k : Nat) (h : step s = .next t) : runSteps (k + 1) s = runSteps k t := by
  simp [runSteps, h]

/-- The entries of a schedule of readings (42_frame_encoder.md R161). -/
abbrev packAll (c : Cfg) (readings : List (ReadingId × ReadingValue × Nat)) : List Entry :=
  readings.map fun r => pack c r.2.2 r.1 r.2.1

theorem length_of_mem_packAll {c : Cfg} {readings : List (ReadingId × ReadingValue × Nat)} {e : Entry}
    (he : e ∈ packAll c readings) : e.length = entryWidth c := by
  obtain ⟨r, -, rfl⟩ := List.mem_map.1 he
  exact pack_length ..

/-- One step for each reading of a schedule appends the packed readings in arrival order, and what was to come after them
is then next. -/
theorem runSteps_of_buffered_readings (readings : List (ReadingId × ReadingValue × Nat)) (later : List InputEvent)
    (k : Nat) {s : State} (hmode : s.mode = .batch ∨ s.mode = .onDemand)
    (hinputs : s.inputs = readings.map (fun r => .reading r.1 r.2.1 r.2.2) ++ later) :
    runSteps (readings.length + k) s = runSteps k (bufAppendAll (packAll s.cfg readings) (takeInput later s)) := by
  induction readings generalizing s with
  | nil =>
    obtain rfl : s.inputs = later := hinputs
    rw [List.length_nil, Nat.zero_add]
    rfl
  | cons r readings ih =>
    rw [List.map_cons, List.cons_append] at hinputs
    have hstep := step_of_buffered_reading hmode hinputs
    rw [List.length_cons, Nat.add_right_comm, runSteps_succ_of_step _ hstep]
    exact ih hmode rfl

/-- Settles O39: the readings are appended to an empty FIFO, which then holds the last `C` of them, each of `W` bytes; the
flush of GetData sends these and empties it again. -/
theorem onDemandReadingsComeOutInArrivalOrder : Obligations.OnDemandReadingsComeOutInArrivalOrder := by
  intro s readings hmode hbuf hinputs
  have hwidth : ∀ e ∈ (packAll s.cfg readings).drop (readings.length - s.cfg.capacity),
      e.length = entryWidth s.cfg := fun e he => length_of_mem_packAll (List.mem_of_mem_drop he)
  have hcount : ((packAll s.cfg readings).drop (readings.length - s.cfg.capacity)).length =
      min readings.length s.cfg.capacity := by
    rw [List.length_drop, List.length_map]; omega
  have hbuffered := bufAppendAll_spec (s := takeInput [.rxChunk [0x04]] s) (packAll s.cfg readings)
    (holdsLastOf_nil.2 hbuf)
  rw [List.nil_append, List.length_map] at hbuffered
  rw [runSteps_of_buffered_readings readings _ 1 (.inr hmode) hinputs, hbuffered,
    runSteps_succ_of_step 0 (step_of_getdata rfl hwidth), ← hcount, ← hbuf]
  rfl

end Sys2Proof.Machine
end

