-- ==== Sys2Proof/Proofs/Encoding.lean ====
section
/-! SUPPORT. The encodings (30_encoding.md): the opcode map and its inverse, the opcodes that are ignored, the layout of an
entry, and the first byte and the length of every frame. -/

namespace Sys2Proof.Machine

/-! ### The opcode map (30_encoding.md R73) -/

theorem selectCommand_of_inRow {r : OpcodeRow} {op : Byte} (hrow : inRow (rowMask r) (rowMatch r) op = true)
    (d : Option Byte) : selectCommand op d = commandOfRow r op d := by
  rw [selectCommand, rowOf_unique r op hrow]

/-- The decoder reads the row's command from the chunk of any opcode that has the row's fixed bits. -/
theorem decode_of_inRow (r : OpcodeRow) {op : Byte} (hrow : inRow (rowMask r) (rowMatch r) op = true)
    (d : Option Byte) : decode (op :: d.toList) = .ok (commandOfRow r op d) := by
  rw [decode_cons, chunkData_toList, selectCommand_of_inRow hrow]

/-- The opcodes of a row are contiguous: the bits the row leaves free are its low ones. -/
theorem inRow_iff_between (r : OpcodeRow) : ∀ op : Byte, inRow (rowMask r) (rowMatch r) op = true ↔
    (rowMatch r).toNat ≤ op.toNat ∧ op.toNat ≤ (rowMatch r ||| ~~~rowMask r).toNat := by
  cases r <;> decide

theorem commandOfRow_wellFormed {r : OpcodeRow} {op : Byte} (hrow : inRow (rowMask r) (rowMatch r) op = true)
    (d : Option Byte) : (commandOfRow r op d).wellFormed = true := by
  cases r
  case unrecognized0C | unrecognized10 | unrecognized20 | unrecognized40 | unrecognized80 => exact hrow
  all_goals rfl

theorem selectCommand_wellFormed (op : Byte) (d : Option Byte) : (selectCommand op d).wellFormed = true :=
  commandOfRow_wellFormed (rowOf_matches op) d

/-- Every command's chunk is of the row its constructor stands for. -/
theorem encodedRow : ∀ i : Instr, Laws.EncodedRow.Statement i
  | .stop d => Laws.EncodedRow.stop d
  | .start1 d => Laws.EncodedRow.start1 d
  | .start2 d => Laws.EncodedRow.start2 d
  | .start3 d => Laws.EncodedRow.start3 d
  | .getdata d => Laws.EncodedRow.getdata d
  | .cfgs1 d => Laws.EncodedRow.cfgs1 d
  | .cfgs2 d => Laws.EncodedRow.cfgs2 d
  | .cfgs3 d => Laws.EncodedRow.cfgs3 d
  | .cfgbatch d => Laws.EncodedRow.cfgbatch d
  | .reserved09 d => Laws.EncodedRow.reserved09 d
  | .reserved0A d => Laws.EncodedRow.reserved0A d
  | .unrecognized0B d => Laws.EncodedRow.unrecognized0B d
  | .unrecognized0C op d => Laws.EncodedRow.unrecognized0C op d
  | .unrecognized10 op d => Laws.EncodedRow.unrecognized10 op d
  | .unrecognized20 op d => Laws.EncodedRow.unrecognized20 op d
  | .unrecognized40 op d => Laws.EncodedRow.unrecognized40 op d
  | .unrecognized80 op d => Laws.EncodedRow.unrecognized80 op d

/-- Settles O1: a well-formed command is its row's, its chunk has the row's fixed bits, and no other row has them. -/
theorem decodeOfEncodeIsTheCommand : Obligations.DecodeOfEncodeIsTheCommand := by
  intro i hwf
  obtain ⟨r, op, d, rfl, hchunk, hrow⟩ := encodedRow i hwf
  rw [hchunk, decode_of_inRow r hrow]

/-- Settles O4: each range of opcodes is that of one row's fixed bits. -/
theorem opcodeMapSelectsTheRow : Obligations.OpcodeMapSelectsTheRow := by
  intro op d
  exact ⟨decode_of_inRow .stop rfl d, decode_of_inRow .start1 rfl d, decode_of_inRow .start2 rfl d,
    decode_of_inRow .start3 rfl d, decode_of_inRow .getdata rfl d, decode_of_inRow .cfgs1 rfl d,
    decode_of_inRow .cfgs2 rfl d, decode_of_inRow .cfgs3 rfl d, decode_of_inRow .cfgbatch rfl d,
    decode_of_inRow .reserved09 rfl d, decode_of_inRow .reserved0A rfl d, decode_of_inRow .unrecognized0B rfl d,
    fun hrange => decode_of_inRow .unrecognized0C ((inRow_iff_between _ op).2 hrange) d,
    fun hrange => decode_of_inRow .unrecognized10 ((inRow_iff_between _ op).2 hrange) d,
    fun hrange => decode_of_inRow .unrecognized20 ((inRow_iff_between _ op).2 hrange) d,
    fun hrange => decode_of_inRow .unrecognized40 ((inRow_iff_between _ op).2 hrange) d,
    fun hfirst => decode_of_inRow .unrecognized80 ((inRow_iff_between _ op).2 ⟨hfirst, Nat.le_of_lt_succ op.isLt⟩) d⟩

/-- Settles O5: each chunk is an opcode with its row's fixed bits, and its data byte where it has one. -/
theorem writtenOutChunksDecode : Obligations.WrittenOutChunksDecode :=
  ⟨decode_of_inRow .stop rfl none, decode_of_inRow .start2 rfl (some 0x77), decode_of_inRow .getdata rfl none,
    decode_of_inRow .cfgs1 rfl (some 50), decode_of_inRow .cfgbatch rfl (some 200),
    decode_of_inRow .reserved0A rfl none, decode_of_inRow .unrecognized80 rfl (some 5)⟩

/-! ### What is read of a chunk (30_encoding.md R70, R71) -/

/-- The opcode and the data byte of a chunk are its first two bytes, or its one. -/
theorem cons_chunkData_toList (op : Byte) (rest : List Byte) :
    op :: (chunkData (op :: rest)).toList = (op :: rest).take 2 := by
  cases rest <;> rfl

theorem parse_cons (op : Byte) (rest : List Byte) :
    parse (op :: rest) = some (op, (chunkData (op :: rest)).getD 0) := by
  cases rest <;> rfl

/-- Settles O2: the command an opcode selects keeps the opcode and the data byte, and is of the opcode's row. -/
theorem encodeOfDecodeIsTheReadBytes : Obligations.EncodeOfDecodeIsTheReadBytes := by
  intro chunk i hdecode
  cases chunk with
  | nil => simp at hdecode
  | cons op rest =>
    obtain rfl : selectCommand op (chunkData (op :: rest)) = i := by simpa using hdecode
    refine ⟨?_, selectCommand_wellFormed _ _⟩
    rw [encode, selectCommand_opcode, selectCommand_data, cons_chunkData_toList]

/-- Settles O3: parser and decoder both take the opcode and the data byte from the head of the chunk. -/
theorem parseReadsTheHeadOfAChunk : Obligations.ParseReadsTheHeadOfAChunk := by
  refine ⟨rfl, fun _ => rfl, fun _ _ _ => rfl, fun chunk => ?_⟩
  cases chunk with
  | nil => rfl
  | cons op rest => simp [parse_cons]

theorem step_of_rxChunk {s : State} {op : Byte} {tail : List Byte} {rest : List InputEvent}
    (hinputs : s.inputs = .rxChunk (op :: tail) :: rest) :
    step s = exec (selectCommand op (chunkData (op :: tail))) (takeInput rest s) :=
  step_of_inputs hinputs

/-- Settles O11: both steps run the command that the first two bytes select. -/
theorem onlyTheFirstCommandOfAChunkRuns : Obligations.OnlyTheFirstCommandOfAChunkRuns := by
  intro s op d tail rest
  have hrun (later : List Byte) : step { s with inputs := .rxChunk (op :: d :: later) :: rest } =
      exec (selectCommand op (some d)) { s with inputs := rest } :=
    step_of_rxChunk (s := { s with inputs := .rxChunk (op :: d :: later) :: rest }) rfl
  rw [hrun tail, hrun []]

/-! ### The opcodes that are ignored (30_encoding.md R74, R75) -/

/-- The commands whose opcode is 0x09 or above are the rows that leave the state as it is (40_dispatch.md R110). -/
theorem exec_of_not_recognized {i : Instr} (s : State) (hop : 0x09 ≤ i.opcode.toNat) : exec i s = .next s := by
  cases i
  case stop | start1 | start2 | start3 | getdata | cfgs1 | cfgs2 | cfgs3 | cfgbatch => simp [Instr.opcode] at hop
  all_goals rfl

theorem step_of_not_recognized {s : State} {op : Byte} {tail : List Byte} {rest : List InputEvent}
    (hop : 0x09 ≤ op.toNat) (hinputs : s.inputs = .rxChunk (op :: tail) :: rest) :
    step s = .next { s with inputs := rest } := by
  rw [step_of_rxChunk hinputs]
  exact exec_of_not_recognized (takeInput rest s) (by rwa [selectCommand_opcode])

/-- Settles O19: an opcode from 0x0B on is one from 0x09 on, and `exec` answers its own state for each of the
six rows. -/
theorem unrecognizedOpcodesAreIgnored : Obligations.UnrecognizedOpcodesAreIgnored :=
  ⟨fun _ _ _ _ hop hinputs => step_of_not_recognized (Nat.le_trans (by decide) hop) hinputs,
    fun _ _ _ => ⟨rfl, rfl, rfl, rfl, rfl, rfl⟩⟩

/-- Settles O20: the two reserved tags are the first opcodes that are not recognized. -/
theorem reservedTagsAreIgnoredInbound : Obligations.ReservedTagsAreIgnoredInbound := by
  refine ⟨fun s op tail rest hop hinputs => step_of_not_recognized ?_ hinputs, fun _ _ => ⟨rfl, rfl⟩⟩
  rcases hop with rfl | rfl <;> decide

/-! ### The layout of an entry (30_encoding.md R79) -/

theorem beBytes_split_last_two (n v : Nat) :
    beBytes (n + 2) v = beBytes n (v / 256 / 256) ++ [BitVec.ofNat 8 (v / 256), BitVec.ofNat 8 v] := by
  rw [beBytes_split_last, beBytes_split_last, List.append_assoc]
  rfl

/-- The byte before the last of a packed reading, `ts[3:0] . id[1:0] . value[9:8]`. -/
theorem packedNat_second_byte (c : Cfg) (ts : Nat) (id : ReadingId) (value : ReadingValue) :
    BitVec.ofNat 8 (packedNat c ts id value / 256) =
      BitVec.ofNat 8 (ts % 2 ^ c.tsBits % 16 * 16 + id.toNat * 4 + value.toNat / 256) := by
  apply BitVec.eq_of_toNat_eq
  rw [BitVec.toNat_ofNat, BitVec.toNat_ofNat, packedNat]
  omega

/-- The last byte of a packed reading, `value[7:0]`. -/
theorem packedNat_last_byte (c : Cfg) (ts : Nat) (id : ReadingId) (value : ReadingValue) :
    BitVec.ofNat 8 (packedNat c ts id value) = BitVec.ofNat 8 (value.toNat % 256) := by
  apply BitVec.eq_of_toNat_eq
  rw [BitVec.toNat_ofNat, BitVec.toNat_ofNat, packedNat]
  omega

/-- Settles O28: an entry has at least two bytes, and they are the low two of the packed number. -/
theorem entryEndsWithIdAndValue : Obligations.EntryEndsWithIdAndValue := by
  intro c ts id value
  obtain ⟨n, hwidth⟩ := Nat.exists_eq_add_of_le' (entryWidth_ge_two c)
  refine ⟨beBytes n (packedNat c ts id value / 256 / 256), ?_⟩
  rw [pack, hwidth, beBytes_split_last_two, packedNat_second_byte, packedNat_last_byte]

/-! ### The frames a step sends (30_encoding.md R82) -/

/-- Every frame sent on the way from `s` to `t` has the property `P`. -/
def OnlySends (P : List Byte → Prop) (s t : State) : Prop := ∀ frame ∈ txFrames (newOutputs s t), P frame

theorem newOutputs_of_append {s t : State} {os : List OutputEvent} (h : t.outputs = s.outputs ++ os) :
    newOutputs s t = os := by
  rw [newOutputs, h, List.drop_left]

theorem onlySends_of_silent {P : List Byte → Prop} {s t : State} (h : t.outputs = s.outputs) : OnlySends P s t := by
  simp [OnlySends, newOutputs, h, txFrames]

theorem onlySends_of_one {P : List Byte → Prop} {s t : State} {os : List OutputEvent} {frame : List Byte}
    (houtputs : t.outputs = s.outputs ++ os) (hone : txFrames os = [frame]) (hframe : P frame) : OnlySends P s t := by
  simpa [OnlySends, newOutputs_of_append houtputs, hone] using hframe

/-- The first byte and the length of one row of R82, for a frame sent from `s`. -/
def FrameRow (s : State) (frame : List Byte) : Prop :=
  (frame.head? = some 0x00 ∧ (frame.length = 5 ∧ s.started = false ∨ frame.length = 2 ∧ s.started = true)) ∨
  ((frame.head? = some 0x01 ∨ frame.head? = some 0x02 ∨ frame.head? = some 0x03 ∨ frame.head? = some 0x05 ∨
      frame.head? = some 0x06 ∨ frame.head? = some 0x07 ∨ frame.head? = some 0x08) ∧ frame.length = 2) ∨
  ((frame.head? = some 0x04 ∨ frame.head? = some 0x0A) ∧ frame.length = 3 + entryWidth s.cfg * s.buf.length) ∨
  (frame.head? = some 0x09 ∧ frame.length = 1 + entryWidth s.cfg)

section
variable {s : State}

theorem frequenciesFrame_row (hstarted : s.started = false) :
    FrameRow s (frequenciesFrame s.period s.batchInterval) :=
  .inl ⟨rfl, .inl ⟨rfl, hstarted⟩⟩

theorem stopAckFrame_row (hstarted : s.started = true) : FrameRow s (ackFrame s.cfg 0x00) :=
  .inl ⟨rfl, .inr ⟨rfl, hstarted⟩⟩

theorem ackFrame_row {op : Byte} (hop : op ∈ [0x01, 0x02, 0x03, 0x05, 0x06, 0x07, 0x08]) :
    FrameRow s (ackFrame s.cfg op) :=
  .inr (.inl ⟨by simpa [ackFrame] using hop, rfl⟩)

theorem flushFrame_row {tag : Byte} (n : Nat) (htag : tag = 0x04 ∨ tag = 0x0A) (hbuf : BufLegal s.cfg s.buf) :
    FrameRow s (flushFrame tag n s.buf.flatten) := by
  obtain ⟨-, hentries⟩ := hbuf
  have hbytes : s.buf.flatten.length = entryWidth s.cfg * s.buf.length :=
    flatten_length_of_width _ _ fun e he => (hentries e he).1
  refine .inr (.inr (.inl ⟨by simpa [flushFrame] using htag, ?_⟩))
  rw [flushFrame, List.length_cons, List.length_append, beBytes_length, hbytes]
  omega

theorem directFrame_row (ts : Nat) (id : ReadingId) (value : ReadingValue) :
    FrameRow s (directFrame s.cfg ts id value) := by
  refine .inr (.inr (.inr ⟨rfl, ?_⟩))
  rw [directFrame, List.length_cons, pack_length, Nat.add_comm]

end

/-- A flush sends one frame, of the entries buffered before it. -/
theorem flush_onlySends_row {s : State} {tag : Byte} (htag : tag = 0x04 ∨ tag = 0x0A) (hbuf : BufLegal s.cfg s.buf) :
    OnlySends (FrameRow s) s (flush tag s) := by
  rw [flush_spec]
  exact onlySends_of_one rfl rfl (flushFrame_row _ htag hbuf)

theorem exec_onlySends_row {i : Instr} {s t : State} (hbuf : BufLegal s.cfg s.buf) (hexec : exec i s = .next t) :
    OnlySends (FrameRow s) s t := by
  rcases exec_cases i s with
    ⟨_, -, hstarted, firstStop⟩ | ⟨_, -, hstarted, laterStop⟩ | ⟨_, -, start1⟩ | ⟨_, -, start2⟩ | ⟨_, -, start3⟩ |
    ⟨_, -, getdata⟩ | ⟨_, n, -, configure⟩ | ⟨_, -, cfgbatch⟩ | ⟨-, ignored⟩
  · cases firstStop.symm.trans hexec
    exact onlySends_of_one rfl rfl (frequenciesFrame_row hstarted)
  · cases laterStop.symm.trans hexec
    exact onlySends_of_one rfl rfl (stopAckFrame_row hstarted)
  · cases start1.symm.trans hexec
    exact onlySends_of_one rfl rfl (ackFrame_row (by decide))
  · cases start2.symm.trans hexec
    exact onlySends_of_one rfl rfl (ackFrame_row (by decide))
  · cases start3.symm.trans hexec
    exact onlySends_of_one rfl rfl (ackFrame_row (by decide))
  · cases getdata.symm.trans hexec
    exact flush_onlySends_row (.inl rfl) hbuf
  · cases configure.symm.trans hexec
    exact onlySends_of_one rfl rfl (ackFrame_row (by cases n <;> decide))
  · cases cfgbatch.symm.trans hexec
    exact onlySends_of_one rfl rfl (ackFrame_row (by decide))
  · cases ignored.symm.trans hexec
    exact onlySends_of_silent rfl

/-- Settles O51: taking an event from the schedule changes nothing that `FrameRow` reads, and of the effects `step_cases`
lists only a command's, a reading's in Direct and a flush send a frame. -/
theorem framesHaveTheirTagAndLength : Obligations.FramesHaveTheirTagAndLength := by
  intro s t hlegal hstep
  change OnlySends (FrameRow s) s t
  obtain ⟨hbuf, -⟩ := hlegal
  rcases step_cases s with ⟨-, idle⟩ | ⟨e, rest, -, event⟩
  · cases idle.symm.trans hstep
    exact onlySends_of_silent rfl
  rcases event with
    ⟨op, tail, -, command⟩ | ⟨-, emptyChunk⟩ |
    ⟨id, value, ts, -, ⟨-, dropped⟩ | ⟨-, sent⟩ | ⟨-, buffered⟩⟩ |
    ⟨-, -, periodicFlush⟩ | ⟨-, -, staleTick⟩ | ⟨-, reset⟩
  · exact exec_onlySends_row (s := takeInput rest s) hbuf (command.symm.trans hstep)
  · cases emptyChunk.symm.trans hstep
    exact onlySends_of_silent rfl
  · cases dropped.symm.trans hstep
    exact onlySends_of_silent rfl
  · cases sent.symm.trans hstep
    exact onlySends_of_one rfl rfl (directFrame_row ts id value)
  · cases buffered.symm.trans hstep
    exact onlySends_of_silent rfl
  · cases periodicFlush.symm.trans hstep
    exact flush_onlySends_row (s := takeInput rest s) (.inr rfl) hbuf
  · cases staleTick.symm.trans hstep
    exact onlySends_of_silent rfl
  · cases reset.symm.trans hstep
    exact onlySends_of_silent rfl

end Sys2Proof.Machine
end

