-- ==== Sys2Proof/Proofs/Dispatch.lean ====
section
/-! SUPPORT. Command dispatch (40_dispatch.md): the step on a chunk, the whole next state of each command, the mode
transitions, and the one frame that answers each recognized command. -/

namespace Sys2Proof.Machine

/-! ### The step on a chunk (R100, R111) -/

/-- Settles O7: the empty chunk decodes to no command, and any other runs the command its opcode selects. -/
theorem stepRunsTheDecodedCommand : Obligations.StepRunsTheDecodedCommand := by
  intro s chunk rest i hinputs hdecode _
  cases chunk with
  | nil => simp at hdecode
  | cons op tail =>
    obtain rfl : selectCommand op (chunkData (op :: tail)) = i := by simpa using hdecode
    exact step_of_rxChunk hinputs

/-- Settles O8: `onEmptyChunk` answers the state with the event taken. -/
theorem emptyChunkIsIgnored : Obligations.EmptyChunkIsIgnored :=
  fun _ _ hinputs => step_of_inputs hinputs

/-! ### The mode commands (R101 to R104, R112, R115) -/

theorem exec_stop_of_not_started {s : State} (d : Option Byte) (hstarted : s.started = false) :
    exec (.stop d) s = .next (emit [.tx (frequenciesFrame s.period s.batchInterval)] (setStarted s)) := by
  simp [exec, execStop, hstarted]

theorem exec_stop_of_started {s : State} (d : Option Byte) (hstarted : s.started = true) :
    exec (.stop d) s = .next (emit [.tx (ackFrame s.cfg 0x00)] (setMode .noMode s)) := by
  simp [exec, execStop, hstarted]

/-- Settles O12: the two answers of STOP, with their frames byte for byte. -/
theorem stopMarksStartedOrLeavesTheMode : Obligations.StopMarksStartedOrLeavesTheMode :=
  fun d _ => ⟨exec_stop_of_not_started d, exec_stop_of_started d⟩

/-- Settles O13: the effect that StartModeN share, with no control output of its own. -/
theorem start1EntersDirect : Obligations.Start1EntersDirect :=
  fun _ s => congrArg Host.Outcome.next (startMode_spec .direct 0x01 [] s)

/-- Settles O14: the effect that StartModeN share, the timer armed after the restarts. -/
theorem start2EntersBatchAndArmsTheTimer : Obligations.Start2EntersBatchAndArmsTheTimer :=
  fun _ s => congrArg Host.Outcome.next (startMode_spec .batch 0x02 [.flushTimerArm s.batchInterval] s)

/-- Settles O15: the effect that StartModeN share, with no control output of its own. -/
theorem start3EntersOnDemand : Obligations.Start3EntersOnDemand :=
  fun _ s => congrArg Host.Outcome.next (startMode_spec .onDemand 0x03 [] s)

/-- Settles O48: the mode that a command of re-entry writes is the one the state has. -/
theorem reentryOfTheActiveModeSucceeds : Obligations.ReentryOfTheActiveModeSucceeds := by
  intro d s
  refine ⟨fun hmode => ?direct, fun hmode => ?batch, fun hmode => ?onDemand, fun hmode hstarted => ?noMode⟩
  case direct => rw [start1EntersDirect d s, ← hmode]
  case batch => rw [start2EntersBatchAndArmsTheTimer d s, ← hmode]
  case onDemand => rw [start3EntersOnDemand d s, ← hmode]
  case noMode => rw [(stopMarksStartedOrLeavesTheMode d s).2 hstarted, ← hmode]

/-- Settles O47: STOP by `started`, StartModeN by the effect they share; the other commands are composed of operations
that write neither field. -/
theorem modeTransitionTable : Obligations.ModeTransitionTable := by
  intro i s t hexec
  cases i
  case stop d =>
    cases hstarted : s.started with
    | false => cases (exec_stop_of_not_started d hstarted).symm.trans hexec; simp
    | true => cases (exec_stop_of_started d hstarted).symm.trans hexec; simp [hstarted]
  all_goals
    cases Host.Outcome.next.inj hexec
    exact ⟨rfl, rfl⟩

/-! ### The configuration commands (R106 to R109) -/

/-- Settles O17: the three commands are `ConfigureSensor(N, data)` for N = 1, 2, 3. -/
theorem configureSensorSetsItsPeriod : Obligations.ConfigureSensorSetsItsPeriod := by
  rintro d s p rfl
  exact ⟨congrArg Host.Outcome.next (configureSensor_spec .s1 d s),
    congrArg Host.Outcome.next (configureSensor_spec .s2 d s),
    congrArg Host.Outcome.next (configureSensor_spec .s3 d s)⟩

/-- Settles O18: the interval written and announced is the clamped data byte. -/
theorem configureBatchRateSetsTheInterval : Obligations.ConfigureBatchRateSetsTheInterval := by
  rintro d s i rfl
  rfl

/-! ### The data command (R105) -/

theorem flushFrame_eq_cons (tag : Byte) (n : Nat) (bytes : List Byte) :
    flushFrame tag n bytes = tag :: BitVec.ofNat 8 (n / 256) :: BitVec.ofNat 8 n :: bytes := by
  rw [flushFrame, beBytes_split_last_two 0]
  rfl

theorem flushFrame_length (tag : Byte) (n : Nat) (bytes : List Byte) :
    (flushFrame tag n bytes).length = 3 + bytes.length := by
  rw [flushFrame_eq_cons, List.length_cons, List.length_cons, List.length_cons]
  omega

/-- Settles O16: GETDATA is a flush, whose count is exact where every entry has the entry width. -/
theorem getDataFlushesInEveryMode : Obligations.GetDataFlushesInEveryMode := by
  intro d s
  refine ⟨s.buf.flatten.length / entryWidth s.cfg, ?flush, rfl, fun hwidth hfits => ?count⟩
  case flush =>
    rw [← flushFrame_eq_cons]
    exact congrArg Host.Outcome.next (flush_spec Config.forcedTag s)
  case count =>
    have hpos : 0 < entryWidth s.cfg := Nat.lt_of_lt_of_le Nat.two_pos (entryWidth_ge_two s.cfg)
    have hbytes : s.buf.flatten.length = entryWidth s.cfg * s.buf.length := flatten_length_of_width _ _ hwidth
    have hcount : s.buf.flatten.length / entryWidth s.cfg = s.buf.length := by
      rw [hbytes, Nat.mul_div_cancel_left _ hpos]
    rw [← flushFrame_eq_cons, flushFrame_length, hcount, hbytes]
    exact ⟨rfl, Nat.lt_succ_of_le hfits, rfl⟩

/-! ### The one frame of each recognized command (R114) -/

/-- From `s` to `t` control outputs are emitted and then one frame, which has the property `P`. -/
def AnswersWith (P : List Byte → Prop) (s t : State) : Prop :=
  ∃ (control : List OutputEvent) (frame : List Byte),
    t.outputs = s.outputs ++ control ++ [.tx frame] ∧ txFrames control = [] ∧ P frame

/-- What a command is answered with: the frequencies frame, an acknowledgement or a flush. -/
inductive AnswerFrame (c : Cfg) : List Byte → Prop where
  | frequencies (p : Periods) (i : Word16) : AnswerFrame c (frequenciesFrame p i)
  | ack (op : Byte) : AnswerFrame c (ackFrame c op)
  | flush (tag : Byte) (n : Nat) (bytes : List Byte) : AnswerFrame c (flushFrame tag n bytes)

theorem emit_answersWith {P : List Byte → Prop} {s u : State} {frame : List Byte} (control : List OutputEvent)
    (houtputs : u.outputs = s.outputs) (hcontrol : txFrames control = []) (hframe : P frame) :
    AnswersWith P s (emit (control ++ [.tx frame]) u) :=
  ⟨control, frame, by rw [emit_outputs, houtputs, List.append_assoc], hcontrol, hframe⟩

/-- Each of the effects `exec_cases` lists but the last emits its control outputs and then its frame. -/
theorem exec_answersWith_answerFrame {i : Instr} {s t : State} (hwf : i.wellFormed = true)
    (hop : i.opcode.toNat ≤ 0x08) (hexec : exec i s = .next t) : AnswersWith (AnswerFrame s.cfg) s t := by
  rcases exec_cases i s with
    ⟨_, -, -, firstStop⟩ | ⟨_, -, -, laterStop⟩ | ⟨_, -, start1⟩ | ⟨_, -, start2⟩ | ⟨_, -, start3⟩ |
    ⟨_, -, getdata⟩ | ⟨d, n, -, configure⟩ | ⟨d, -, cfgbatch⟩ | ⟨hignored, -⟩
  · cases firstStop.symm.trans hexec
    exact emit_answersWith [] rfl rfl (AnswerFrame.frequencies ..)
  · cases laterStop.symm.trans hexec
    exact emit_answersWith [] rfl rfl (AnswerFrame.ack _)
  · cases start1.symm.trans hexec
    exact emit_answersWith restartAll rfl rfl (AnswerFrame.ack _)
  · cases start2.symm.trans hexec
    exact emit_answersWith (restartAll ++ [.flushTimerArm s.batchInterval]) rfl rfl (AnswerFrame.ack _)
  · cases start3.symm.trans hexec
    exact emit_answersWith restartAll rfl rfl (AnswerFrame.ack _)
  · cases getdata.symm.trans hexec
    exact emit_answersWith [] rfl rfl (AnswerFrame.flush ..)
  · cases configure.symm.trans hexec
    exact emit_answersWith [.sensorConfigure n (clampedMs d)] rfl rfl (AnswerFrame.ack _)
  · cases cfgbatch.symm.trans hexec
    exact emit_answersWith [.flushIntervalSet (clampedMs d)] rfl rfl (AnswerFrame.ack _)
  · have := hignored hwf
    omega

/-- Settles O49: a recognized command has an answer, and any other leaves the state as it is. -/
theorem everyRecognizedCommandSendsOneFrame : Obligations.EveryRecognizedCommandSendsOneFrame := by
  intro i s t hwf hexec
  refine ⟨fun hop => ?recognized, fun hop => ?ignored⟩
  case recognized =>
    obtain ⟨control, frame, houtputs, hcontrol, -⟩ := exec_answersWith_answerFrame hwf hop hexec
    exact ⟨control, frame, houtputs, hcontrol⟩
  case ignored =>
    cases (exec_of_not_recognized s hop).symm.trans hexec
    rfl

/-! ### No failure frame is sent (R113) -/

/-- `frame` is the failure frame of no opcode (42_frame_encoder.md R164). -/
def NoFailure (c : Cfg) (frame : List Byte) : Prop := ∀ op : Byte, frame ≠ failFrame c op

theorem noFailure_of_length {c : Cfg} {frame : List Byte} (hlength : frame.length ≠ 2) : NoFailure c frame := by
  rintro op rfl
  exact hlength rfl

/-- A frame of two bytes is an acknowledgement, whose code is not the error code; every other frame is longer. -/
theorem answerFrame_noFailure {c : Cfg} {frame : List Byte} (h : AnswerFrame c frame) : NoFailure c frame := by
  cases h with
  | frequencies p i => exact noFailure_of_length (by simp [frequenciesFrame])
  | ack op =>
    intro op' heq
    have hcode : op = op' ∧ c.successCode = c.errorCode := by simpa [ackFrame, failFrame] using heq
    exact c.codes_distinct hcode.2.symm
  | flush tag n bytes => exact noFailure_of_length (by rw [flushFrame_length]; omega)

/-- A direct frame is longer than two bytes, since an entry has at least two of its own. -/
theorem directFrame_noFailure (c : Cfg) (ts : Nat) (id : ReadingId) (value : ReadingValue) :
    NoFailure c (directFrame c ts id value) := by
  have hwidth := entryWidth_ge_two c
  exact noFailure_of_length (by rw [directFrame, List.length_cons, pack_length]; omega)

@[simp] theorem txFrames_append (os os' : List OutputEvent) : txFrames (os ++ os') = txFrames os ++ txFrames os' := by
  induction os with
  | nil => rfl
  | cons o os ih => cases o <;> simp [txFrames, ih]

/-- An answer sends its frame alone: there is none among its control outputs. -/
theorem onlySends_of_answersWith {P : List Byte → Prop} {s t : State} (h : AnswersWith P s t) : OnlySends P s t := by
  obtain ⟨control, frame, houtputs, hcontrol, hframe⟩ := h
  rw [List.append_assoc] at houtputs
  exact onlySends_of_one houtputs (by simp [hcontrol, txFrames]) hframe

theorem exec_onlySends_answerFrame {i : Instr} {s t : State} (hwf : i.wellFormed = true) (hexec : exec i s = .next t) :
    OnlySends (AnswerFrame s.cfg) s t := by
  rcases Nat.lt_or_ge 0x08 i.opcode.toNat with hop | hop
  · cases (exec_of_not_recognized s hop).symm.trans hexec
    exact onlySends_of_silent rfl
  · exact onlySends_of_answersWith (exec_answersWith_answerFrame hwf hop hexec)

/-- Settles O50: of the effects `step_cases` lists a command's, a reading's in Direct and a periodic flush send a frame,
and it is an answer or a direct frame. -/
theorem noFailureFrameIsEverSent : Obligations.NoFailureFrameIsEverSent := by
  intro s t hstep
  change OnlySends (NoFailure s.cfg) s t
  rcases step_cases s with ⟨-, idle⟩ | ⟨e, rest, -, event⟩
  · cases idle.symm.trans hstep
    exact onlySends_of_silent rfl
  rcases event with
    ⟨op, tail, -, command⟩ | ⟨-, emptyChunk⟩ |
    ⟨id, value, ts, -, ⟨-, dropped⟩ | ⟨-, sent⟩ | ⟨-, buffered⟩⟩ |
    ⟨-, -, periodicFlush⟩ | ⟨-, -, staleTick⟩ | ⟨-, reset⟩
  · have hanswers : OnlySends (AnswerFrame s.cfg) s t :=
      exec_onlySends_answerFrame (s := takeInput rest s) (selectCommand_wellFormed _ _) (command.symm.trans hstep)
    exact fun frame hframe => answerFrame_noFailure (hanswers frame hframe)
  · cases emptyChunk.symm.trans hstep
    exact onlySends_of_silent rfl
  · cases dropped.symm.trans hstep
    exact onlySends_of_silent rfl
  · cases sent.symm.trans hstep
    exact onlySends_of_one rfl rfl (directFrame_noFailure s.cfg ts id value)
  · cases buffered.symm.trans hstep
    exact onlySends_of_silent rfl
  · cases periodicFlush.symm.trans hstep
    exact onlySends_of_one rfl rfl (answerFrame_noFailure (.flush ..))
  · cases staleTick.symm.trans hstep
    exact onlySends_of_silent rfl
  · cases reset.symm.trans hstep
    exact onlySends_of_silent rfl

end Sys2Proof.Machine
end

