-- ==== Sys2Proof/Proofs/Routing.lean ====
section
/-! SUPPORT. Routing (41_routing.md): the whole next state of a reading in each mode, of a flush tick inside Batch and
outside it, and of a flush that finds the buffer empty. -/

namespace Sys2Proof.Machine

/-! ### Readings (R141 to R144) -/

section
variable {s : State} {id : ReadingId} {value : ReadingValue} {ts : Nat} {rest : List InputEvent}

theorem step_of_discarded_reading (hmode : s.mode = .noMode) (hinputs : s.inputs = .reading id value ts :: rest) :
    step s = .next (takeInput rest s) := by
  rw [step_of_inputs hinputs]
  simp [onEvent, onReading, hmode, ignoreInput]

theorem step_of_direct_reading (hmode : s.mode = .direct) (hinputs : s.inputs = .reading id value ts :: rest) :
    step s = .next (emit [.tx (directFrame s.cfg ts id value)] (takeInput rest s)) := by
  rw [step_of_inputs hinputs]
  simp [onEvent, onReading, hmode]

end

/-- Settles O21: NoMode leaves the state with the event taken; in Batch and in OnDemand `bufAppend` of the packed reading is
all that is done to it. -/
theorem readingIsDiscardedOrBuffered : Obligations.ReadingIsDiscardedOrBuffered :=
  fun _ _ _ _ _ hinputs =>
    ⟨fun hmode => step_of_discarded_reading hmode hinputs, fun hmode => step_of_buffered_reading hmode hinputs⟩

/-- Settles O22: the direct frame is the tag 0x09 ahead of the packed reading, and sending it writes no field. -/
theorem readingInDirectIsSentAtOnce : Obligations.ReadingInDirectIsSentAtOnce :=
  fun _ _ _ _ _ hinputs hmode => step_of_direct_reading hmode hinputs

/-! ### Flush ticks (R145, R146) -/

section
variable {s : State} {rest : List InputEvent}

theorem step_of_periodic_flush (hmode : s.mode = .batch) (hinputs : s.inputs = .flushTick :: rest) :
    step s = .next (flush Config.periodicTag (takeInput rest s)) := by
  rw [step_of_inputs hinputs]
  simp [onEvent, onFlushTick, hmode]

/-- A tick is stale outside Batch, whatever the buffer holds (70_reset_and_hazards.md R248). -/
theorem step_of_stale_tick (hmode : s.mode ≠ .batch) (hinputs : s.inputs = .flushTick :: rest) :
    step s = .next (takeInput rest s) := by
  rw [step_of_inputs hinputs]
  cases hm : s.mode with
  | batch => exact absurd hm hmode
  | noMode | direct | onDemand => simp [onEvent, onFlushTick, hm, ignoreInput]

end

/-- Settles O23: in Batch the tick is a flush, whose count is the drained byte length divided by the entry width; the ticks
of the other three modes are stale. -/
theorem flushTickFlushesInBatchOnly : Obligations.FlushTickFlushesInBatchOnly := by
  intro s rest hinputs
  refine ⟨fun hmode => ⟨s.buf.flatten.length / entryWidth s.cfg, rfl, ?flush⟩,
    fun hmode => step_of_stale_tick hmode hinputs⟩
  rw [step_of_periodic_flush hmode hinputs, flush_spec, ← flushFrame_eq_cons]
  rfl

/-! ### A flush of an empty buffer (R147) -/

/-- With nothing to drain, all that is left of a flush is its header, of count 0. -/
theorem flush_of_empty {s : State} (tag : Byte) (hbuf : s.buf = []) :
    flush tag s = emit [.tx [tag, 0x00, 0x00]] s := by
  have hheader : flushFrame tag (s.buf.flatten.length / entryWidth s.cfg) s.buf.flatten = [tag, 0x00, 0x00] := by
    rw [hbuf, flushFrame_eq_cons, List.flatten_nil, List.length_nil, Nat.zero_div]
    rfl
  rw [flush_spec, hheader, ← hbuf]
  rfl

/-- Settles O24: GETDATA and the tick in Batch are the same flush, of the tags 0x04 and 0x0A. -/
theorem flushOfAnEmptyBufferSendsItsHeader : Obligations.FlushOfAnEmptyBufferSendsItsHeader := by
  refine fun s d rest hbuf => ⟨?forced, fun hinputs hmode => ?periodic⟩
  case forced => exact congrArg Host.Outcome.next (flush_of_empty Config.forcedTag hbuf)
  case periodic =>
    rw [step_of_periodic_flush hmode hinputs, flush_of_empty (s := takeInput rest s) Config.periodicTag hbuf]
    rfl

end Sys2Proof.Machine
end

