-- ==== Sys2Proof/Proofs/FrameEncoder.lean ====
section
/-! SUPPORT. The frame encoder (42_frame_encoder.md): the number an entry spells and the round trip through it, the rounded
and saturated rates, and the bytes of each frame. -/

namespace Sys2Proof.Machine

/-! ### The number an entry spells (R161) -/

/-- No bit of a packed reading is lost: `W` bytes hold `TS_BITS + 12` bits. -/
@[simp] theorem beNat_pack (c : Cfg) (ts : Nat) (id : ReadingId) (value : ReadingValue) :
    beNat (pack c ts id value) = packedNat c ts id value := by
  have hfits : packedNat c ts id value < 2 ^ (8 * entryWidth c) :=
    calc packedNat c ts id value
        < 2 ^ (c.tsBits + 12) := packedNat_lt c ts id value
      _ ≤ 2 ^ (8 * entryWidth c) := Nat.pow_le_pow_right (by decide) (entryWidth_holds c)
  rw [pack, beNat_of_beBytes, Nat.mod_eq_of_lt hfits]

/-- Settles O27: the bytes spell the packed integer, and an entry is legal exactly when it has its width and its padding is
zero. -/
theorem packIsThePackedIntegerInWBytes : Obligations.PackIsThePackedIntegerInWBytes := by
  intro c ts id value
  obtain ⟨hwidth, hpadding⟩ := pack_legal c ts id value
  exact ⟨hwidth, beNat_pack c ts id value, hpadding⟩

/-! ### The round trip (R169, R170) -/

section
variable (e : Entry)

theorem unpack_timestamp : (unpack e).1 = beNat e / 2 ^ 12 := rfl
theorem unpack_id_toNat : (unpack e).2.1.toNat = beNat e / 2 ^ 10 % 2 ^ 2 := BitVec.toNat_ofNat ..
theorem unpack_value_toNat : (unpack e).2.2.toNat = beNat e % 2 ^ 10 := BitVec.toNat_ofNat ..

end

/-- With the padding bits at zero, what stands above the id and the value is a timestamp of `TS_BITS` bits. -/
theorem unpack_timestamp_lt {c : Cfg} {e : Entry} (hpadding : beNat e < 2 ^ (c.tsBits + 12)) :
    (unpack e).1 < 2 ^ c.tsBits := by
  rw [Nat.pow_add] at hpadding
  rw [unpack_timestamp]
  exact Nat.div_lt_of_lt_mul (Nat.mul_comm .. ▸ hpadding)

/-- Settles O30: the number of a byte sequence is given by the empty one and by its first byte split off. -/
theorem unpackReadsTheFields : Obligations.UnpackReadsTheFields :=
  ⟨fun e => ⟨unpack_timestamp e, unpack_id_toNat e, unpack_value_toNat e⟩, fun _ _ => unpack_timestamp_lt, rfl,
    beNat_split_head⟩

section
variable (c : Cfg) (ts : Nat) (id : ReadingId) (value : ReadingValue)

theorem packedNat_timestamp : packedNat c ts id value / 2 ^ 12 = ts % 2 ^ c.tsBits := by
  unfold packedNat; omega

theorem packedNat_id : packedNat c ts id value / 2 ^ 10 % 2 ^ 2 = id.toNat := by
  unfold packedNat; omega

theorem packedNat_value : packedNat c ts id value % 2 ^ 10 = value.toNat := by
  unfold packedNat; omega

/-- Packing loses only the timestamp's bits above `TS_BITS`. -/
theorem unpack_pack : unpack (pack c ts id value) = (ts % 2 ^ c.tsBits, id, value) := by
  refine Prod.ext ?timestamp (Prod.ext (BitVec.eq_of_toNat_eq ?id) (BitVec.eq_of_toNat_eq ?value))
  case timestamp => rw [unpack_timestamp, beNat_pack, packedNat_timestamp]
  case id => rw [unpack_id_toNat, beNat_pack, packedNat_id]
  case value => rw [unpack_value_toNat, beNat_pack, packedNat_value]

end

/-- Settles O31: a timestamp of at most `TS_BITS` bits has no bits to lose. -/
theorem unpackOfPackIsTheReading : Obligations.UnpackOfPackIsTheReading := by
  intro c ts id value
  have roundTrip := unpack_pack c ts id value
  exact ⟨roundTrip, fun hts => by rwa [Nat.mod_eq_of_lt hts] at roundTrip⟩

/-! ### Frequencies and rates (R165, R166) -/

/-- The two inequalities are `q - 1/2 ≤ 1000 / p < q + 1/2` with the fractions cleared: rounding half up. -/
theorem roundedRate_eq_of_between {p q : Nat} (hlow : 2 * p * q ≤ 2000 + p) (hhigh : 2000 + p < 2 * p * (q + 1)) :
    roundedRate p = q :=
  Nat.div_eq_of_lt_le (Nat.mul_comm .. ▸ hlow) (Nat.mul_comm .. ▸ hhigh)

/-- Rounding half up counts the halves in `1000 / p` and pairs them off, an odd one up: `p` stands under one division
only. -/
theorem roundedRate_eq_halves {p : Nat} (hp : 1 ≤ p) : roundedRate p = (2000 / p + 1) / 2 := by
  rw [roundedRate, Nat.mul_comm, ← Nat.div_div_eq_div_mul, Nat.add_div_right _ hp]

theorem roundedRate_antitone {p p' : Nat} (hp : 1 ≤ p) (hle : p ≤ p') : roundedRate p' ≤ roundedRate p := by
  have hhalves : 2000 / p' ≤ 2000 / p := Nat.div_le_div_left hle hp
  rw [roundedRate_eq_halves hp, roundedRate_eq_halves (hp.trans hle)]
  omega

section
variable {p : Word16} (hp : 1 ≤ p.toNat)
include hp

theorem ne_zero_of_period : p ≠ 0 := by
  rintro rfl
  exact absurd hp (by decide)

theorem freqOf_of_period : freqOf p = BitVec.ofNat 8 (min (roundedRate p.toNat) 15) := if_neg (ne_zero_of_period hp)

theorem rateOf_of_period : rateOf p = BitVec.ofNat 8 (min (roundedRate p.toNat) 255) := if_neg (ne_zero_of_period hp)

/-- The saturated frequency fits its byte. -/
theorem freqOf_toNat : (freqOf p).toNat = min (roundedRate p.toNat) 15 := by
  rw [freqOf_of_period hp, BitVec.toNat_ofNat]
  omega

/-- The saturated rate fits its byte. -/
theorem rateOf_toNat : (rateOf p).toNat = min (roundedRate p.toNat) 255 := by
  rw [rateOf_of_period hp, BitVec.toNat_ofNat]
  omega

end

/-- Settles O32: the two inequalities say that `q` is the rounded rate. -/
theorem frequencyAndRateRoundAndSaturate : Obligations.FrequencyAndRateRoundAndSaturate := by
  intro p q hp hlow hhigh
  have hrounded : roundedRate p.toNat = q := roundedRate_eq_of_between hlow hhigh
  rw [freqOf_of_period hp, rateOf_of_period hp, hrounded]
  exact ⟨rfl, rfl⟩

/-- Settles O33: the rounded rate falls with the period, and saturation keeps the order. -/
theorem frequencyFitsFourBitsAndFallsWithThePeriod : Obligations.FrequencyFitsFourBitsAndFallsWithThePeriod := by
  intro p p' hp hle
  have hp' : 1 ≤ p'.toNat := hp.trans hle
  have hrate : roundedRate p'.toNat ≤ roundedRate p.toNat := roundedRate_antitone hp hle
  rw [freqOf_toNat hp, freqOf_toNat hp', rateOf_toNat hp, rateOf_toNat hp']
  exact ⟨Nat.lt_succ_of_le (Nat.min_le_right ..), min_le_min_right 15 hrate, min_le_min_right 255 hrate⟩

/-! ### The frames (R162 to R164, R167, R168) -/

/-- The low count byte of a flush frame, written as a number below 256. -/
theorem flushFrame_eq_count_bytes (tag : Byte) (n : Nat) (bytes : List Byte) :
    flushFrame tag n bytes = tag :: BitVec.ofNat 8 (n / 256) :: BitVec.ofNat 8 (n % 256) :: bytes := by
  have hlow : BitVec.ofNat 8 (n % 256) = BitVec.ofNat 8 n :=
    BitVec.eq_of_toNat_eq (by rw [BitVec.toNat_ofNat, BitVec.toNat_ofNat, Nat.mod_mod])
  rw [flushFrame_eq_cons, hlow]

/-- Settles O34: the first four frames are their definitions, and a flush frame's count is two bytes, the high one first.
The layout holds for a count of any size; above 65535 its bytes would no longer tell the count. -/
theorem framesByteForByte : Obligations.FramesByteForByte :=
  fun _ _ _ _ _ _ _ tag n bytes _ => ⟨rfl, rfl, rfl, rfl, flushFrame_eq_count_bytes tag n bytes⟩

end Sys2Proof.Machine
end

