-- ==== Sys2Proof/Proofs/ReadingBuffer.lean ====
section
/-! SUPPORT. The reading buffer (43_reading_buffer.md): the two cases of an append, a drain, the count a flush reports, and
where an entry can come from. -/

namespace Sys2Proof.Machine

/-! ### `BufAppend` (R190) -/

section
variable {s : State} (e : Entry)

theorem bufAppend_of_full (hfull : s.cfg.capacity ≤ s.buf.length) :
    bufAppend e s = { s with buf := s.buf.drop 1 ++ [e] } := by
  rw [bufAppend, if_pos hfull, List.drop_one]

theorem bufAppend_of_room (hroom : s.buf.length < s.cfg.capacity) :
    bufAppend e s = { s with buf := s.buf ++ [e] } := by
  rw [bufAppend, if_neg (Nat.not_le_of_lt hroom)]

/-- A full buffer keeps its length, since it holds an entry to evict: the capacity is at least 1. -/
theorem length_bufAppend (hfits : s.buf.length ≤ s.cfg.capacity) :
    (bufAppend e s).buf.length = min (s.buf.length + 1) s.cfg.capacity := by
  have hpos := s.cfg.capacity_pos
  rcases Nat.lt_or_ge s.buf.length s.cfg.capacity with hroom | hfull
  · rw [bufAppend_of_room e hroom, List.length_append, List.length_singleton]
    omega
  · rw [bufAppend_of_full e hfull, List.length_append, List.length_drop, List.length_singleton]
    omega

end

/-- Settles O35: an append finds the buffer full or with room, and from at most `C` entries leaves at most `C`. -/
theorem appendEvictsTheOldestWhenFull : Obligations.AppendEvictsTheOldestWhenFull :=
  fun _ e => ⟨bufAppend_of_full e, bufAppend_of_room e, length_bufAppend e⟩

/-- Settles O37: an empty buffer holds the last `C` of no entries, and appends keep it so of all that arrived. -/
theorem appendsLeaveTheLastCEntries : Obligations.AppendsLeaveTheLastCEntries := by
  intro s es hempty
  have hbuf : (bufAppendAll es s).buf = es.drop (es.length - s.cfg.capacity) :=
    congrArg State.buf (bufAppendAll_spec es (holdsLastOf_nil.2 hempty))
  refine ⟨hbuf, ?length⟩
  rw [hbuf, List.length_drop]
  omega

/-! ### `BufDrain` (R191) -/

theorem bufDrain_fst_of_cons {s : State} {e : Entry} {es : List Entry} (hbuf : s.buf = e :: es) :
    (bufDrain s).1 = e ++ (bufDrain { s with buf := es }).1 := by
  rw [bufDrain_fst, hbuf, List.flatten_cons, bufDrain_fst]

theorem length_bufDrain_fst {s : State} (hwidth : ∀ e ∈ s.buf, e.length = entryWidth s.cfg) :
    (bufDrain s).1.length = entryWidth s.cfg * s.buf.length := by
  rw [bufDrain_fst, flatten_length_of_width _ _ hwidth]

/-- Settles O36: the drained bytes are the entries one after another, whose lengths add up. -/
theorem drainReturnsEveryByteAndEmptiesTheBuffer : Obligations.DrainReturnsEveryByteAndEmptiesTheBuffer := by
  refine fun s => ⟨rfl, fun hempty => ?empty, fun _ _ => bufDrain_fst_of_cons, length_bufDrain_fst⟩
  rw [bufDrain_fst, hempty, List.flatten_nil]

/-! ### The count of a flush (R194) -/

/-- The header of a flush frame spells its count, of two bytes (42_frame_encoder.md R168, R171). -/
theorem beNat_flushFrame_count {n : Nat} (tag : Byte) (bytes : List Byte) (hn : n ≤ 65535) :
    beNat ((flushFrame tag n bytes).drop 1 |>.take 2) = n := by
  have hheader : ((flushFrame tag n bytes).drop 1).take 2 = beBytes 2 n := List.take_left' (beBytes_length 2 n)
  rw [hheader, beNat_of_beBytes]
  exact Nat.mod_eq_of_lt (Nat.lt_succ_of_le hn)

/-- Settles O38: legal entries all have the width the drained byte length is divided by, and `C` of them are no more than
two bytes can count. -/
theorem flushCountIsTheNumberOfEntries : Obligations.FlushCountIsTheNumberOfEntries := by
  rintro s tag ⟨hfits, hentries⟩
  have hwidth : ∀ e ∈ s.buf, e.length = entryWidth s.cfg := fun e he => (hentries e he).1
  have hpos : 0 < entryWidth s.cfg := Nat.lt_of_lt_of_le Nat.two_pos (entryWidth_ge_two s.cfg)
  refine ⟨?count, flush_of_width tag hwidth, beNat_flushFrame_count tag _ (hfits.trans s.cfg.capacity_le)⟩
  rw [length_bufDrain_fst hwidth, Nat.mul_div_cancel_left _ hpos]

/-! ### Where an entry comes from (R195) -/

/-- An append brings in its own entry and no other. -/
theorem mem_bufAppend {s : State} {e e' : Entry} (h : e' ∈ (bufAppend e s).buf) : e' ∈ s.buf ∨ e' = e := by
  rw [bufAppend_buf, List.mem_append, List.mem_singleton] at h
  refine h.imp_left fun hkept => ?_
  split at hkept
  · exact List.mem_of_mem_tail hkept
  · exact hkept

/-- A command creates no entry: GETDATA alone writes the buffer, and empties it. -/
theorem exec_buf_subset {i : Instr} {s t : State} (hexec : exec i s = .next t) : t.buf ⊆ s.buf := by
  by_cases hsame : t.buf = s.buf
  · exact hsame ▸ List.Subset.refl _
  · obtain ⟨-, -, -, -, -, -, hwriter, -⟩ := commandsWriteOnlyTheirFields i s t hexec
    obtain ⟨d, rfl⟩ := hwriter hsame
    obtain rfl : flush Config.forcedTag s = t := Host.Outcome.next.inj hexec
    rw [flush_buf]
    exact List.nil_subset _

/-- All that a step can bring into the buffer: nothing, or the reading it takes in Batch or OnDemand. -/
theorem step_buf_cases {s t : State} (hstep : step s = .next t) :
    t.buf ⊆ s.buf ∨
    (s.mode = .batch ∨ s.mode = .onDemand) ∧ ∃ id value ts rest, s.inputs = .reading id value ts :: rest ∧
      t = bufAppend (pack s.cfg ts id value) (takeInput rest s) := by
  rcases step_cases s with ⟨-, idle⟩ | ⟨e, rest, hinputs, event⟩
  · cases idle.symm.trans hstep; exact .inl (List.Subset.refl _)
  rcases event with
    ⟨op, tail, -, command⟩ | ⟨-, emptyChunk⟩ |
    ⟨id, value, ts, rfl, ⟨-, dropped⟩ | ⟨-, sent⟩ | ⟨hmode, buffered⟩⟩ |
    ⟨-, -, periodicFlush⟩ | ⟨-, -, staleTick⟩ | ⟨-, reset⟩
  · exact .inl (exec_buf_subset (s := takeInput rest s) (command.symm.trans hstep))
  · cases emptyChunk.symm.trans hstep; exact .inl (List.Subset.refl _)
  · cases dropped.symm.trans hstep; exact .inl (List.Subset.refl _)
  · cases sent.symm.trans hstep; exact .inl (List.Subset.refl _)
  · cases buffered.symm.trans hstep; exact .inr ⟨hmode, id, value, ts, rest, hinputs, rfl⟩
  · cases periodicFlush.symm.trans hstep; exact .inl (List.nil_subset _)
  · cases staleTick.symm.trans hstep; exact .inl (List.Subset.refl _)
  · cases reset.symm.trans hstep; exact .inl (List.nil_subset _)

/-- Settles O40: a new entry was not in the buffer, so the step is the one that appends a reading, and the entry is it. -/
theorem entriesComeOnlyFromBufferedReadings : Obligations.EntriesComeOnlyFromBufferedReadings := by
  intro s t e hstep hafter hbefore
  rcases step_buf_cases hstep with hsubset | ⟨hmode, id, value, ts, rest, hinputs, rfl⟩
  · exact absurd (hsubset hafter) hbefore
  · have hnew : e = pack s.cfg ts id value := (mem_bufAppend hafter).resolve_left hbefore
    exact ⟨hmode, id, value, ts, rest, hinputs, hnew⟩

end Sys2Proof.Machine
end

