-- ==== Sys2Proof/Proofs/Exceptions.lean ====
section
/-! SUPPORT. Events and the environment (60_exceptions.md): a step always completes and only adds outputs, the outputs tell
the environment of every register the step writes, and the bounded walk of a sensor channel. -/

namespace Sys2Proof.Machine

/-! ### What one output does to the channels and the timer (R216, R218, R219) -/

@[simp] theorem getChannel_putChannel (env : Environment) (n m : Sensor) (ch : SensorChannel) :
    getChannel (putChannel env n ch) m = if m = n then ch else getChannel env m := by
  cases n <;> cases m <;> rfl

@[simp] theorem putChannel_flushInterval (env : Environment) (n : Sensor) (ch : SensorChannel) :
    (putChannel env n ch).flushInterval = env.flushInterval := by cases n <;> rfl

@[simp] theorem configureChannel_period (p : Word16) (ch : SensorChannel) : (configureChannel p ch).period = p := rfl

@[simp] theorem restartChannel_period (ch : SensorChannel) : (restartChannel ch).period = ch.period := rfl

@[simp] theorem receiveOutputs_append (env : Environment) (os os' : List OutputEvent) :
    receiveOutputs env (os ++ os') = receiveOutputs (receiveOutputs env os) os' := List.foldl_append

section
variable {env : Environment} {s : State} (h : Lockstep env s)
include h

/-- A restart keeps the channel's period. -/
theorem lockstep_sensorRestart (n : Sensor) : Lockstep (receiveOutput env (.sensorRestart n)) s := by
  obtain ⟨hperiod, hinterval⟩ := h
  refine ⟨fun m => ?_, by simpa [receiveOutput] using hinterval⟩
  by_cases hm : m = n <;> simp [receiveOutput, hm, hperiod]

theorem lockstep_restartAll : Lockstep (receiveOutputs env restartAll) s :=
  lockstep_sensorRestart (lockstep_sensorRestart (lockstep_sensorRestart h .s1) .s2) .s3

theorem lockstep_sensorConfigure (n : Sensor) (p : Word16) :
    Lockstep (receiveOutput env (.sensorConfigure n p)) (setPeriod n p s) := by
  obtain ⟨hperiod, hinterval⟩ := h
  refine ⟨fun m => ?_, by simpa [receiveOutput] using hinterval⟩
  by_cases hm : m = n <;> simp [receiveOutput, hm, hperiod]

/-- Arming announces the interval the timer already has. -/
theorem lockstep_flushTimerArm : Lockstep (receiveOutput env (.flushTimerArm s.batchInterval)) s := by
  obtain ⟨hperiod, -⟩ := h
  exact ⟨hperiod, rfl⟩

theorem lockstep_flushIntervalSet (i : Word16) :
    Lockstep (receiveOutput env (.flushIntervalSet i)) (setBatchInterval i s) := by
  obtain ⟨hperiod, -⟩ := h
  exact ⟨hperiod, rfl⟩

theorem channelFrequency_of_lockstep (n : Sensor) :
    channelFrequency (getChannel env n) = freqOf (getPeriod s.period n) := by
  obtain ⟨hperiod, -⟩ := h
  exact congrArg freqOf (hperiod n)

end

/-! ### What is written is announced (R210, R216) -/

/-- The outputs of `t` are those of `s` and then ones that keep every environment in lockstep with the block. -/
def Announces (s t : State) : Prop :=
  ∃ os : List OutputEvent, t.outputs = s.outputs ++ os ∧
    ∀ env : Environment, Lockstep env s → Lockstep (receiveOutputs env os) t

section
variable {s t : State}

theorem announces_of_silent (hperiod : t.period = s.period) (hinterval : t.batchInterval = s.batchInterval)
    (houtputs : t.outputs = s.outputs) : Announces s t :=
  ⟨[], by simpa using houtputs, fun _ h => by rwa [Lockstep, hperiod, hinterval]⟩

/-- A frame goes to the transport, not to a channel or the timer. -/
theorem announces_of_frame {frame : List Byte} (hperiod : t.period = s.period)
    (hinterval : t.batchInterval = s.batchInterval) (houtputs : t.outputs = s.outputs ++ [.tx frame]) :
    Announces s t :=
  ⟨[.tx frame], houtputs, fun _ h => by rwa [Lockstep, hperiod, hinterval]⟩

end

/-- StartModeN writes no register: its own control outputs need only announce what the registers hold. -/
theorem startMode_announces {s : State} (m : Mode) (op : Byte) (control : List OutputEvent)
    (hcontrol : ∀ env, Lockstep env s → Lockstep (receiveOutputs env control) s) :
    Announces s (startMode m op control s) := by
  refine ⟨restartAll ++ control ++ [.tx (ackFrame s.cfg op)], rfl, fun env henv => ?_⟩
  rw [receiveOutputs_append, receiveOutputs_append]
  exact hcontrol _ (lockstep_restartAll henv)

theorem configureSensor_announces (n : Sensor) (data : Option Byte) (s : State) :
    Announces s (configureSensor n data s) :=
  ⟨_, rfl, fun _ h => lockstep_sensorConfigure h n (clampedMs data)⟩

/-- Every command completes, and whichever of the effects `exec_cases` lists it has announces what it writes. -/
theorem exec_announces (i : Instr) (s : State) : ∃ t : State, exec i s = .next t ∧ Announces s t := by
  rcases exec_cases i s with
    ⟨_, -, -, firstStop⟩ | ⟨_, -, -, laterStop⟩ | ⟨_, -, start1⟩ | ⟨_, -, start2⟩ | ⟨_, -, start3⟩ |
    ⟨_, -, getdata⟩ | ⟨d, n, -, configure⟩ | ⟨d, -, cfgbatch⟩ | ⟨-, ignored⟩
  · exact ⟨_, firstStop, announces_of_frame rfl rfl rfl⟩
  · exact ⟨_, laterStop, announces_of_frame rfl rfl rfl⟩
  · exact ⟨_, start1, startMode_announces _ _ [] fun _ h => h⟩
  · exact ⟨_, start2, startMode_announces _ _ _ fun _ h => lockstep_flushTimerArm h⟩
  · exact ⟨_, start3, startMode_announces _ _ [] fun _ h => h⟩
  · exact ⟨_, getdata, announces_of_frame rfl rfl rfl⟩
  · exact ⟨_, configure, configureSensor_announces n d s⟩
  · exact ⟨_, cfgbatch, _, rfl, fun _ h => lockstep_flushIntervalSet h (clampedMs d)⟩
  · exact ⟨_, ignored, announces_of_silent rfl rfl rfl⟩

/-- Every step completes. A Reset tells the environment nothing, so it alone may write registers it does not
announce. -/
theorem step_announces_or_resets (s : State) :
    ∃ t : State, step s = .next t ∧ (Announces s t ∨ s.inputs.head? = some .reset ∧ t.outputs = s.outputs) := by
  rcases step_cases s with ⟨-, idle⟩ | ⟨e, rest, hinputs, event⟩
  · exact ⟨_, idle, .inl (announces_of_silent rfl rfl rfl)⟩
  rcases event with
    ⟨op, tail, -, command⟩ | ⟨-, emptyChunk⟩ |
    ⟨_, _, _, -, ⟨-, dropped⟩ | ⟨-, sent⟩ | ⟨-, buffered⟩⟩ |
    ⟨-, -, periodicFlush⟩ | ⟨-, -, staleTick⟩ | ⟨rfl, reset⟩
  · obtain ⟨t, hexec, hannounces⟩ := exec_announces (selectCommand op (chunkData (op :: tail))) (takeInput rest s)
    exact ⟨t, command.trans hexec, .inl hannounces⟩
  · exact ⟨_, emptyChunk, .inl (announces_of_silent rfl rfl rfl)⟩
  · exact ⟨_, dropped, .inl (announces_of_silent rfl rfl rfl)⟩
  · exact ⟨_, sent, .inl (announces_of_frame rfl rfl rfl)⟩
  · exact ⟨_, buffered, .inl (announces_of_silent rfl rfl rfl)⟩
  · exact ⟨_, periodicFlush, .inl (announces_of_frame rfl rfl rfl)⟩
  · exact ⟨_, staleTick, .inl (announces_of_silent rfl rfl rfl)⟩
  · exact ⟨_, reset, .inr ⟨by rw [hinputs, List.head?_cons], rfl⟩⟩

/-- Settles O54: the step is no Reset, so it announces what it writes, and its new outputs are what it announces. -/
theorem outputsKeepTheEnvironmentInLockstep : Obligations.OutputsKeepTheEnvironmentInLockstep := by
  intro env s t henv hstep hnotReset
  obtain ⟨u, hu, ⟨os, houtputs, hkeeps⟩ | ⟨hreset, -⟩⟩ := step_announces_or_resets s
  · obtain rfl : u = t := Host.Outcome.next.inj (hu.symm.trans hstep)
    rw [newOutputs_of_append houtputs]
    have hafter : Lockstep (receiveOutputs env os) u := hkeeps env henv
    exact ⟨hafter, channelFrequency_of_lockstep hafter⟩
  · exact absurd hreset hnotReset

/-- At construction the channels and the timer hold what the block's registers hold at reset (log 15). -/
theorem lockstep_buildEnvironment (c : Cfg) : Lockstep (buildEnvironment c) (State.resetWith c) :=
  ⟨fun n => by cases n <;> rfl, rfl⟩

/-- A commanded step that meets the hypotheses of O54: `CFGS2` with 80 ms brings the second channel to 13 readings a
second. -/
theorem channelFrequency_after_cfgs2 (c : Cfg) :
    ∃ t : State, step { State.resetWith c with inputs := [.rxChunk [0x06, 80]] } = .next t ∧
      channelFrequency
        (getChannel (receiveOutputs (buildEnvironment c) (newOutputs (State.resetWith c) t)) .s2) = 13 := by
  refine ⟨_, rfl, ?_⟩
  obtain ⟨-, hfrequency⟩ := outputsKeepTheEnvironmentInLockstep (buildEnvironment c)
    { State.resetWith c with inputs := [.rxChunk [0x06, 80]] } _ (lockstep_buildEnvironment c) rfl (by simp)
  calc _ = freqOf 80 := hfrequency .s2
    _ = 13 := by decide

/-- Settles O10: what is announced is added to the earlier outputs, and a Reset adds nothing. -/
theorem everyStepHasANextState : Obligations.EveryStepHasANextState := by
  refine ⟨fun s => ?step, fun i s => ?command⟩
  case step =>
    obtain ⟨t, ht, ⟨os, houtputs, -⟩ | ⟨-, hsilent⟩⟩ := step_announces_or_resets s
    · exact ⟨t, os, ht, houtputs⟩
    · exact ⟨t, [], ht, by rw [hsilent, List.append_nil]⟩
  case command =>
    obtain ⟨t, ht, os, houtputs, -⟩ := exec_announces i s
    exact ⟨t, os, ht, houtputs⟩

/-! ### The walk of a sensor channel (R217) -/

/-- The clamped value fits the 10-bit port: no bit of it is cut off. -/
theorem nextValue_toNat (current : ReadingValue) (k : Fin 60) :
    ((nextValue current k).toNat : Int) = max 0 (min ((current.toNat : Int) + drawOffset k) 1023) := by
  rw [nextValue, BitVec.toNat_ofNat]
  omega

theorem nextValue_near (current : ReadingValue) (k : Fin 60) :
    (nextValue current k).toNat ≤ current.toNat + 29 ∧ current.toNat ≤ (nextValue current k).toNat + 30 := by
  have hvalue := nextValue_toNat current k
  have hport := current.isLt
  have hdraw := k.isLt
  rw [drawOffset] at hvalue
  omega

theorem sensorId_ne_zero (n : Sensor) : sensorId n ≠ 0 := by
  cases n <;> decide

/-- Settles O55: the reading's value is the clamped walk, and its timestamp one of the two that I6 leaves free. -/
theorem sensorTickIsABoundedWalk : Obligations.SensorTickIsABoundedWalk := by
  intro n k ch
  obtain ⟨hup, hdown⟩ := nextValue_near ch.value k
  refine ⟨nextValue ch.value k, _, rfl, nextValue_toNat ch.value k, ?stamp, hup, hdown, sensorId_ne_zero n⟩
  case stamp =>
    by_cases hafter : Config.timestampAfterAdvance = true
    · exact .inr (if_pos hafter)
    · exact .inl (if_neg hafter)

end Sys2Proof.Machine
end

/-! SUPPORT. Reset and hazards (70_reset_and_hazards.md): the reset values, and a configured register seen by the very
next StopMode. -/

namespace Sys2Proof.Machine

/-! ### Reset (R240, R241) -/

/-- All that a reset does: the block is as it was built, but for the schedule still to come and the outputs already
emitted (log 13). -/
theorem resetBlock_spec (s : State) :
    resetBlock s = { State.resetWith s.cfg with inputs := s.inputs, outputs := s.outputs } := rfl

/-- Settles O25: the event is taken and the block reset. -/
theorem resetEventRestoresTheResetValues : Obligations.ResetEventRestoresTheResetValues := by
  intro s rest hinputs
  calc step s
      = .next (resetBlock (takeInput rest s)) := step_of_inputs hinputs
    _ = _ := by rw [resetBlock_spec]; rfl

/-- Settles O26: `State.reset` is the reset state of the configuration `Config.cfg`. -/
theorem resetStateHoldsTheResetValues : Obligations.ResetStateHoldsTheResetValues :=
  ⟨State.resetWith_mode Config.cfg, State.resetWith_started Config.cfg, State.resetWith_buf Config.cfg,
    State.resetWith_period Config.cfg, State.resetWith_batchInterval Config.cfg, State.resetWith_cfg Config.cfg,
    State.resetWith_outputs Config.cfg, State.resetWith_inputs Config.cfg⟩

/-! ### Configure, then StopMode (R243) -/

section
variable {s : State} {d : Byte} {rest : List InputEvent}

theorem step_of_configureSensor {n : Sensor} (hinputs : s.inputs = .rxChunk [configureOpcode n, d] :: rest) :
    step s = .next (configureSensor n (some d) (takeInput rest s)) := by
  rw [step_of_rxChunk hinputs]
  cases n with
  | s1 => rw [selectCommand_of_inRow (r := .cfgs1) rfl]; rfl
  | s2 => rw [selectCommand_of_inRow (r := .cfgs2) rfl]; rfl
  | s3 => rw [selectCommand_of_inRow (r := .cfgs3) rfl]; rfl

theorem step_of_configureBatchRate (hinputs : s.inputs = .rxChunk [0x08, d] :: rest) :
    step s = .next (emit [.flushIntervalSet (clampedMs (some d)), .tx (ackFrame s.cfg 0x08)]
      (setBatchInterval (clampedMs (some d)) (takeInput rest s))) := by
  rw [step_of_rxChunk hinputs, selectCommand_of_inRow (r := .cfgbatch) rfl]
  rfl

theorem step_of_first_stop (hstarted : s.started = false) (hinputs : s.inputs = .rxChunk [0x00] :: rest) :
    step s = .next (emit [.tx (frequenciesFrame s.period s.batchInterval)] (setStarted (takeInput rest s))) := by
  rw [step_of_rxChunk hinputs, selectCommand_of_inRow (r := .stop) rfl]
  exact exec_stop_of_not_started (s := takeInput rest s) _ hstarted

end

/-- A first StopMode right after a step to `u` leaves the periods and sends, as the last frame, the frequencies frame of
the registers of `u`, whatever outputs `os` the step itself emitted. -/
theorem next_stop_reports_registers {s u : State} {os : List OutputEvent} {rest : List InputEvent}
    (hstep : step s = .next u) (houtputs : u.outputs = s.outputs ++ os) (hstarted : u.started = false)
    (hinputs : u.inputs = .rxChunk [0x00] :: rest) :
    ∃ t : State, runSteps 2 s = .next t ∧ t.period = u.period ∧
      (txFrames (newOutputs s t)).getLast? = some (frequenciesFrame u.period u.batchInterval) := by
  have hrun : runSteps 2 s =
      .next (emit [.tx (frequenciesFrame u.period u.batchInterval)] (setStarted (takeInput rest u))) := by
    rw [runSteps_succ_of_step 1 hstep, runSteps_succ_of_step 0 (step_of_first_stop hstarted hinputs)]
    rfl
  refine ⟨_, hrun, rfl, ?lastFrame⟩
  case lastFrame =>
    rw [newOutputs_of_append (os := os ++ [.tx (frequenciesFrame u.period u.batchInterval)]) (by simp [houtputs]),
      txFrames_append]
    exact List.getLast?_concat

/-- Settles O52: the configure command writes its register and leaves `started` clear, so the StopMode after it is the
first and reports the registers as written. -/
theorem configureIsSeenByTheNextStop : Obligations.ConfigureIsSeenByTheNextStop := by
  intro s d rest hstarted
  refine ⟨fun n hinputs => ?sensor, fun hinputs => ?batchRate⟩
  case sensor =>
    obtain ⟨t, hrun, hperiod, hlast⟩ :=
      next_stop_reports_registers (step_of_configureSensor hinputs) rfl hstarted rfl
    refine ⟨t, hrun, fun m => ?registers, ?frame⟩
    case registers =>
      rw [hperiod, configureSensor_period, getPeriod_putPeriod]
      rfl
    case frame =>
      rw [hlast, hperiod]
      rfl
  case batchRate =>
    obtain ⟨t, hrun, -, hlast⟩ :=
      next_stop_reports_registers (step_of_configureBatchRate hinputs) rfl hstarted rfl
    exact ⟨t, hrun, hlast⟩

end Sys2Proof.Machine

/-! SUPPORT. The model's interface (logs 1, 2 and 12): the step on a table word stored as the next chunk, and the step
with no event presented. -/

namespace Sys2Proof.Machine

theorem decodeTableWord_eq_some_iff {nbits w : Nat} {i : Instr} :
    decodeTableWord nbits w = some i ↔ decode (chunkOfWord nbits w) = .ok i := by
  cases hchunk : decode (chunkOfWord nbits w) <;> simp [decodeTableWord, hchunk]

/-- Settles O6: the word's chunk decodes to the command, which is well-formed as every decoded command is (O2), so the
step runs it (O7); taking the stored chunk off the schedule gives the state it was stored in. -/
theorem fetchWordIsTheNextCommand : Obligations.FetchWordIsTheNextCommand := by
  intro s nbits w i hword
  have hdecode : decode (chunkOfWord nbits w) = .ok i := decodeTableWord_eq_some_iff.1 hword
  obtain ⟨-, hwellFormed⟩ := encodeOfDecodeIsTheReadBytes (chunkOfWord nbits w) i hdecode
  exact stepRunsTheDecodedCommand (s.withFetchWord nbits w) (chunkOfWord nbits w) s.inputs i rfl hdecode hwellFormed

/-- Settles O9: of all that a step can do, only waiting takes no event. -/
theorem nothingPresentedNothingChanges : Obligations.NothingPresentedNothingChanges := by
  intro s hnone
  rcases step_cases s with ⟨-, idle⟩ | ⟨e, rest, hinputs, -⟩
  · exact idle
  · simp [hnone] at hinputs

end Sys2Proof.Machine
